-- ==== Sys2Proof/Word.lean ====
section
/-! DEFINITION. The words of the Thrust slide-merge engine (TSME) and its fixed sets of names
(spec/00_scope.md R7, R9, R13). Every value is unsigned and bit 0 is the least significant bit (R9). -/

namespace Sys2Proof

/-- The whole 4 x 4 board: 16 cells of 4 bits (R7 `BOARD_BITS`, R32). -/
abbrev Board := BitVec 64

/-- One row or column: four cells of 4 bits (R7 `LINE_BITS`, R10). -/
abbrev Line := BitVec 16

/-- A 4-bit tile code; 0 is the empty cell (R7 `CELL_BITS`, R13). -/
abbrev Code := BitVec 4

/-- A face value on the port (R7 `FACE_BITS`). -/
abbrev Face := BitVec 16

/-- A 4-bit insertion selector (R7 `SEL_BITS`, R20). -/
abbrev Sel := BitVec 4

/-- A command word (R7 `CMD_BITS`, R82). -/
abbrev CmdWord := BitVec 32

/-- The command data bus and the response data bus (R7 `DATA_BITS`). -/
abbrev Data := BitVec 64

/-- The four swipe directions, in the order of their DIR codes (R86). -/
inductive Dir where
  | left
  | up
  | right
  | down
  deriving DecidableEq, Repr

/-- The axis a direction moves along (R133). -/
inductive Axis where
  | rows
  | cols
  deriving DecidableEq, Repr

end Sys2Proof
end

