-- ==== Sys2Proof/Config.lean ====
section
/-! DEFINITION. What one implementation fixes: the parameters of spec/00_scope.md R7, and as constants
WITHOUT A BODY everything the spec leaves open (R8, R41, R42, R74, R161). Nothing can evaluate those,
so a theorem holds for every value of them. -/

namespace Sys2Proof.Config

/-! ### The fixed parameters of R7 that are counts (the widths are the types of Sys2Proof/Word.lean) -/

/-- R7 `NCELLS`: the cells of a board. -/
abbrev nCells : Nat := 16

/-- R7 `NLINES`: the lines of a board along one axis. -/
abbrev nLines : Nat := 4

/-- R7 `NDIRS` and `NLUTS`: the directions, one table each. -/
abbrev nDirs : Nat := 4

/-- R7 `CODE_MAX`: the largest tile code. -/
abbrev codeMax : Nat := 15

/-- R7 `LUT_ENTRIES`: the entries of one table. -/
abbrev lutEntries : Nat := 65536

/-- R63: the entries of the LUT space, `2^18`. -/
abbrev lutSpace : Nat := 262144

/-- R7 `SCORE_BITS`. -/
abbrev scoreBits : Nat := 32

/-! ### The open parameters of R8 (D7): finite and at least 1, otherwise free -/

/-- FREE VALUE: `BUILD_LATENCY` less the one cycle it lasts at least (R8, log 3). -/
opaque buildExtra : Nat

/-- R8 `BUILD_LATENCY`: the cycles from the release of reset to STATUS.READY = 1. -/
def buildLatency : Nat := buildExtra + 1

/-- FREE VALUE: `CMD_LATENCY(op)` less the one cycle it lasts at least (R8, log 3). -/
opaque cmdExtra : BitVec 4 → Nat

/-- R8 `CMD_LATENCY(op)`: the cycles from a command's acceptance to its response. -/
def cmdLatency (op : BitVec 4) : Nat := cmdExtra op + 1

/-! ### What the spec leaves unspecified about the tables (the first argument is State's counter `epoch`,
so that nothing relates one reset to the next; log 4 and 5) -/

/-- FREE VALUE: the order in which the builder writes the entries after reset number `epoch`; any
order in which every entry comes once (R42, R74, R161). -/
opaque buildOrder : (epoch : Nat) → Equiv.Perm (Fin lutSpace)

/-- FREE VALUE: how many entries the builder writes in the given cycle of its build; it may write in
parallel (R74, R161). -/
opaque buildBurst : (epoch cycle : Nat) → Nat

/-- FREE VALUE: `LUT[d].data[n]` while `LUT[d].valid[n]` is 0 (R41, I5), by the entry's address. -/
opaque lutUnset : (epoch address : Nat) → Line

end Sys2Proof.Config
end

