-- ==== Sys2Proof/Syntax.lean ====
section
/-! DEFINITION. The commands, one constructor per row of spec/opcode_table.json
(spec/30_encoding.md R87; the TSME's instructions are its commands, spec/00_scope.md R3). -/

namespace Sys2Proof

/-- A command with its operands (R82, R84): each is an unsigned field of its width, none extended or
scaled. A reserved row's only fixed bits are OP, so its constructor keeps the other 28. -/
inductive Instr where
  /-- NOP (R181) -/
  | nop
  /-- LOAD_BOARD; the board comes on `cmd_data` (R183, R91) -/
  | loadBoard (board : Board)
  /-- READ_BOARD (R185) -/
  | readBoard
  /-- SWIPE DIR, TILE, SEL (R190) -/
  | swipe (dir : Dir) (tile : Code) (sel : Sel)
  /-- SCORE (R205) -/
  | score
  /-- ENCODE FACE (R115) -/
  | encode (face : Face)
  /-- DECODE CODE (R117) -/
  | decode (code : Code)
  /-- READ_STATUS (R212) -/
  | readStatus
  /-- LUT_READ DIR, INDEX (R170) -/
  | lutRead (dir : Dir) (index : Line)
  /-- OP 0x9, reserved (R90, R222) -/
  | reserved9 (rest : BitVec 28)
  /-- OP 0xA, reserved (R90, R222) -/
  | reservedA (rest : BitVec 28)
  /-- OP 0xB, reserved (R90, R222) -/
  | reservedB (rest : BitVec 28)
  /-- OP 0xC, reserved (R90, R222) -/
  | reservedC (rest : BitVec 28)
  /-- OP 0xD, reserved (R90, R222) -/
  | reservedD (rest : BitVec 28)
  /-- OP 0xE, reserved (R90, R222) -/
  | reservedE (rest : BitVec 28)
  /-- OP 0xF, reserved (R90, R222) -/
  | reservedF (rest : BitVec 28)
  deriving DecidableEq, Repr

end Sys2Proof
end

