-- ==== Sys2Proof/WellFormed.lean ====
section
/-! DEFINITION. Which terms of Instr are legal commands (spec/30_encoding.md R89, R90). An operand's range
is its type's width, so the one check left is the opcode: the reserved rows are no legal command. -/

namespace Sys2Proof

/-- A legal command: a row of the opcode map other than a reserved one (R89). -/
def Instr.wellFormed : Instr → Bool
  | .nop => true
  | .loadBoard _ => true
  | .readBoard => true
  | .swipe _ _ _ => true
  | .score => true
  | .encode _ => true
  | .decode _ => true
  | .readStatus => true
  | .lutRead _ _ => true
  | .reserved9 _ => false
  | .reservedA _ => false
  | .reservedB _ => false
  | .reservedC _ => false
  | .reservedD _ => false
  | .reservedE _ => false
  | .reservedF _ => false

/-- The predicate of the check. -/
abbrev WellFormed (i : Instr) : Prop := i.wellFormed = true

end Sys2Proof
end

