-- ==== Sys2Proof/Decode.lean ====
section
/-! DEFINITION. The command word: its fields, the opcode map, the decoder (total on every word, rejecting
by name) and the encoder (spec/30_encoding.md R82-R84, R86, R87, R89-R91; spec/opcode_table.json). -/

namespace Sys2Proof

/-! ### Directions -/

/-- The DIR code of a direction (R86). -/
def Dir.toBits : Dir → BitVec 2
  | .left => 0
  | .up => 1
  | .right => 2
  | .down => 3

/-- The direction of a DIR code (R86). -/
def Dir.ofBits (b : BitVec 2) : Dir :=
  match b.toNat with
  | 0 => .left
  | 1 => .up
  | 2 => .right
  | _ => .down

/-! ### The fields of a command word (R82) -/

/-- OP, bits [3:0]. -/
def opField (w : CmdWord) : BitVec 4 := w.extractLsb' 0 4

/-- DIR, bits [5:4]. -/
def dirField (w : CmdWord) : BitVec 2 := w.extractLsb' 4 2

/-- TILE, and CODE of DECODE, bits [11:8]. -/
def tileField (w : CmdWord) : Code := w.extractLsb' 8 4

/-- SEL, bits [15:12]. -/
def selField (w : CmdWord) : Sel := w.extractLsb' 12 4

/-- IMM16, bits [31:16]: FACE of ENCODE, INDEX of LUT_READ. -/
def immField (w : CmdWord) : BitVec 16 := w.extractLsb' 16 16

/-- The bits above OP, which a reserved row leaves open. -/
def restField (w : CmdWord) : BitVec 28 := w.extractLsb' 4 28

/-! ### The opcode map -/

/-- One row of the opcode map (R87). -/
structure OpcodeRow where
  mnemonic : String
  mask : CmdWord
  pattern : CmdWord
  reserved : Bool
  deriving DecidableEq, Repr

/-- A word belongs to a row if and only if its masked bits are the row's pattern (R87). -/
def OpcodeRow.accepts (r : OpcodeRow) (w : CmdWord) : Bool := w &&& r.mask == r.pattern

/-- The rows of the nine commands (R87). -/
def commandRows : List OpcodeRow :=
  [ ⟨"NOP", 0xFFFFFFFF, 0x00000000, false⟩,
    ⟨"LOAD_BOARD", 0xFFFFFFFF, 0x00000001, false⟩,
    ⟨"READ_BOARD", 0xFFFFFFFF, 0x00000002, false⟩,
    ⟨"SWIPE", 0xFFFF00CF, 0x00000003, false⟩,
    ⟨"SCORE", 0xFFFFFFFF, 0x00000004, false⟩,
    ⟨"ENCODE", 0x0000FFFF, 0x00000005, false⟩,
    ⟨"DECODE", 0xFFFFF0FF, 0x00000006, false⟩,
    ⟨"READ_STATUS", 0xFFFFFFFF, 0x00000007, false⟩,
    ⟨"LUT_READ", 0x0000FFCF, 0x00000008, false⟩ ]

/-- The reserved rows 0x9 to 0xF (R87, R90). -/
def reservedRows : List OpcodeRow :=
  [ ⟨"RESERVED_0x9", 0x0000000F, 0x00000009, true⟩,
    ⟨"RESERVED_0xA", 0x0000000F, 0x0000000A, true⟩,
    ⟨"RESERVED_0xB", 0x0000000F, 0x0000000B, true⟩,
    ⟨"RESERVED_0xC", 0x0000000F, 0x0000000C, true⟩,
    ⟨"RESERVED_0xD", 0x0000000F, 0x0000000D, true⟩,
    ⟨"RESERVED_0xE", 0x0000000F, 0x0000000E, true⟩,
    ⟨"RESERVED_0xF", 0x0000000F, 0x0000000F, true⟩ ]

/-- The whole opcode map (R87). -/
def opcodeRows : List OpcodeRow := commandRows ++ reservedRows

/-- The mask of an opcode's row (R87). -/
def maskOf (op : BitVec 4) : CmdWord :=
  match op.toNat with
  | 0 => 0xFFFFFFFF
  | 1 => 0xFFFFFFFF
  | 2 => 0xFFFFFFFF
  | 3 => 0xFFFF00CF
  | 4 => 0xFFFFFFFF
  | 5 => 0x0000FFFF
  | 6 => 0xFFFFF0FF
  | 7 => 0xFFFFFFFF
  | 8 => 0x0000FFCF
  | _ => 0x0000000F

/-- The pattern (`match`) of an opcode's row: OP alone (R87). -/
def patternOf (op : BitVec 4) : CmdWord := op.setWidth 32

/-- R89, as written out there: `legal(w)`. -/
def legalWord (w : CmdWord) : Bool :=
  decide ((opField w).toNat ≤ 8) && (w &&& maskOf (opField w) == patternOf (opField w))

/-! ### The decoder -/

/-- Why a word decodes to no row of the table. -/
inductive DecodeError where
  /-- OP is one of the nine commands and `bits`, RSV or bits of fields the command does not use, are not
  all 0 (R89, R90); the engine answers ILLEGAL_COMMAND (R222), so this is no stop. -/
  | mustBeZero (op : BitVec 4) (bits : CmdWord)
  deriving DecidableEq, Repr

/-- The operands of the row that OP selects (R82, R84, R87); `data` is `cmd_data` (R91). -/
def decodeFields (w : CmdWord) (data : Data) : Instr :=
  match (opField w).toNat with
  | 0 => .nop
  | 1 => .loadBoard data
  | 2 => .readBoard
  | 3 => .swipe (Dir.ofBits (dirField w)) (tileField w) (selField w)
  | 4 => .score
  | 5 => .encode (immField w)
  | 6 => .decode (tileField w)
  | 7 => .readStatus
  | 8 => .lutRead (Dir.ofBits (dirField w)) (immField w)
  | 9 => .reserved9 (restField w)
  | 10 => .reservedA (restField w)
  | 11 => .reservedB (restField w)
  | 12 => .reservedC (restField w)
  | 13 => .reservedD (restField w)
  | 14 => .reservedE (restField w)
  | _ => .reservedF (restField w)

/-- The decoder: total on every command word and every value of `cmd_data` (R89). -/
def decode (w : CmdWord) (data : Data) : Except DecodeError Instr :=
  if w &&& maskOf (opField w) = patternOf (opField w) then
    .ok (decodeFields w data)
  else
    .error (.mustBeZero (opField w) ((w &&& maskOf (opField w)) ^^^ patternOf (opField w)))

/-! ### The encoder -/

/-- R83: the word assembled from its fields, RSV being 0. -/
def assembleWord (op : BitVec 4) (dir : BitVec 2) (tile : Code) (sel : Sel) (imm : BitVec 16) :
    CmdWord :=
  op.setWidth 32 ||| (dir.setWidth 32 <<< 4) ||| (tile.setWidth 32 <<< 8) |||
    (sel.setWidth 32 <<< 12) ||| (imm.setWidth 32 <<< 16)

/-- A word of a reserved opcode. -/
def assembleReserved (op : BitVec 4) (rest : BitVec 28) : CmdWord :=
  op.setWidth 32 ||| (rest.setWidth 32 <<< 4)

/-- The command word of an instruction (R83, R87, R93). -/
def encodeWord : Instr → CmdWord
  | .nop => assembleWord 0x0 0 0 0 0
  | .loadBoard _ => assembleWord 0x1 0 0 0 0
  | .readBoard => assembleWord 0x2 0 0 0 0
  | .swipe dir tile sel => assembleWord 0x3 dir.toBits tile sel 0
  | .score => assembleWord 0x4 0 0 0 0
  | .encode face => assembleWord 0x5 0 0 0 face
  | .decode code => assembleWord 0x6 0 code 0 0
  | .readStatus => assembleWord 0x7 0 0 0 0
  | .lutRead dir index => assembleWord 0x8 dir.toBits 0 0 index
  | .reserved9 rest => assembleReserved 0x9 rest
  | .reservedA rest => assembleReserved 0xA rest
  | .reservedB rest => assembleReserved 0xB rest
  | .reservedC rest => assembleReserved 0xC rest
  | .reservedD rest => assembleReserved 0xD rest
  | .reservedE rest => assembleReserved 0xE rest
  | .reservedF rest => assembleReserved 0xF rest

/-- What `cmd_data` carries: LOAD_BOARD's board, and 0 beside every other command, which ignores it
(R80, R91). -/
def encodeData : Instr → Data
  | .loadBoard board => board
  | .nop => 0
  | .readBoard => 0
  | .swipe _ _ _ => 0
  | .score => 0
  | .encode _ => 0
  | .decode _ => 0
  | .readStatus => 0
  | .lutRead _ _ => 0
  | .reserved9 _ => 0
  | .reservedA _ => 0
  | .reservedB _ => 0
  | .reservedC _ => 0
  | .reservedD _ => 0
  | .reservedE _ => 0
  | .reservedF _ => 0

/-- The encoder: the command word and the data beside it. -/
def encode (i : Instr) : CmdWord × Data := (encodeWord i, encodeData i)

/-! ### The table's numbering -/

/-- The command word in a number whose bit 0 is the word's bit 0 and which has `nbits` bits. -/
def tableCmdWord (nbits w : Nat) : CmdWord := BitVec.ofNat 32 (w % 2 ^ nbits)

/-- The `cmd_data` in that number: the bits that count on from the word's 32 (the table's
`CMD32+DATA64`). -/
def tableCmdData (nbits w : Nat) : Data := BitVec.ofNat 64 (w % 2 ^ nbits / 2 ^ 32)

/-- The instruction the decoder reads from bits numbered as spec/opcode_table.json numbers them. -/
def decodeTableWord (nbits w : Nat) : Option Instr :=
  match decode (tableCmdWord nbits w) (tableCmdData nbits w) with
  | .ok i => some i
  | .error _ => none

end Sys2Proof
end

