-- ==== Sys2Proof/Machine/State.lean ====
section
/-! DEFINITION. The state of the TSME as plain data (spec/10_state.md R30), its value after reset (R45), and
the reasons a step could stop (none: spec/60_exceptions.md R229, R237). -/

namespace Sys2Proof.Machine

/-- The 16 error codes of LAST_ERR and of a response (spec/60_exceptions.md R220). -/
inductive ErrCode where
  | ok
  | illegalCommand
  | notReady
  | domain
  | lutMiss
  | faulted
  /-- codes 6 to 15, by how far they lie above 6: no command ever produces one, only a state before the first
  reset may hold one (R220, spec/70_reset_and_hazards.md R253) -/
  | reserved (k : Fin 10)
  deriving DecidableEq, Repr

/-- The 19 bits of STATUS that are its own state (R30, R36); HIGHEST's mirror and the reserved bits are
not stored, the 32-bit word is `State.statusWord`. -/
structure Status where
  ready : Bool
  fault : Bool
  changed : Bool
  inserted : Bool
  defaulted : Bool
  lastDir : Dir
  lastErr : ErrCode
  insPos : BitVec 4
  edgeMask : BitVec 4
  deriving DecidableEq, Repr

/-- The LUT space (spec/20_memory.md R63): the entries whose valid bit is 1, as pairs of an address and
the entry's 16 data bits, addresses strictly rising. An address that is not listed reads as valid bit 0
and unspecified data (R41). -/
abbrev Memory := List (Nat × Line)

/-- The builder's progress since reset (R42): the clock edges it has run and the entries it has written. -/
structure Builder where
  edges : Nat
  written : Nat
  deriving DecidableEq, Repr

/-- The phase of the command port, with what the port holds in it (R43, spec/30_encoding.md R81). -/
inductive Port where
  /-- no command is held -/
  | idle
  /-- the accepted word and data, the edges still to pass before the edge of the command's step, and
  STATUS.READY as it stood when the command was accepted (spec/60_exceptions.md R224) -/
  | busy (word : CmdWord) (data : Data) (wait : Nat) (ready : Bool)
  /-- the response on the response bus -/
  | respond (err : ErrCode) (data : Data)
  deriving DecidableEq, Repr

/-- The input ports at one rising edge of `clk` (spec/30_encoding.md R80). -/
structure Pins where
  rst : Bool
  cmdValid : Bool
  cmdWord : CmdWord
  cmdData : Data
  rspReady : Bool
  deriving DecidableEq, Repr

/-- A host that drives nothing. -/
def Pins.quiet : Pins :=
  { rst := false, cmdValid := false, cmdWord := 0, cmdData := 0, rspReady := false }

/-- The machine's state. `board` to `port` are the spec's (R30); `inputs` and `epoch` are the model's own:
what the host drives at the coming edges, the first at the next one (log 2), and the count of resets the
free values are applied to (log 4, 5). -/
structure State where
  /-- BOARD (R32) -/
  board : Board
  /-- HIGHEST (R35) -/
  highest : Code
  /-- STATUS (R36) -/
  status : Status
  /-- LUT[0] to LUT[3] (R40) -/
  lut : Memory
  /-- builder progress (R42) -/
  builder : Builder
  /-- port phase (R43) -/
  port : Port
  /-- the input ports at the coming rising edges; none listed, the host drives nothing -/
  inputs : List Pins
  /-- the resets so far -/
  epoch : Nat
  deriving DecidableEq, Repr

/-- No reason: the TSME never stops (R229: every error is a response; R237: no hang inside the TSME). It has
no constructor, so that a step that answers `fault` is impossible by its type; this is safe. -/
inductive Fault where
  deriving DecidableEq, Repr

/-- The reasons a step has no meaning. -/
inductive Refusal where
  /-- Raised only by an arm of `exec` whose instruction has no meaning yet; no arm is. Safe. -/
  | notModelled (mnemonic : String)
  deriving DecidableEq, Repr

/-- What a command's meaning answers. -/
abbrev Result := Host.Outcome State Fault Refusal

/-- STATUS after reset (R45). -/
def Status.reset : Status :=
  { ready := false, fault := false, changed := false, inserted := false, defaulted := false,
    lastDir := .left, lastErr := .ok, insPos := 0, edgeMask := 0 }

/-- The machine right after reset (R45): BOARD and HIGHEST 0, STATUS 0, no LUT entry valid, the builder
about to start, the port IDLE; no input pending. -/
def State.reset : State :=
  { board := 0, highest := 0, status := Status.reset, lut := [],
    builder := { edges := 0, written := 0 }, port := .idle, inputs := [], epoch := 0 }

end Sys2Proof.Machine
end

