-- ==== Sys2Proof/Machine/Operands.lean ====
section
/-! DEFINITION. The parts of a board and of a line that the commands work on: nibbles and cells
(spec/00_scope.md R10, spec/20_memory.md R60), the line masks, gather and scatter
(spec/41_line_datapath.md R130-R135), the trailing edge (spec/43_board_engine.md), and the largest code. -/

namespace Sys2Proof.Machine

/-! ### Nibbles -/

/-- `nib(v, i)`: nibble `i` of a value (R10). -/
def nib {w : Nat} (v : BitVec w) (i : Nat) : Code := v.extractLsb' (4 * i) 4

/-- `setnib(v, i, t)`: the value with nibble `i` replaced by `t` (R10). -/
def setnib {w : Nat} (v : BitVec w) (i : Nat) (t : Code) : BitVec w :=
  (v &&& ~~~((0xF#4).setWidth w <<< (4 * i))) ||| (t.setWidth w <<< (4 * i))

/-- The index of cell `(r, c)` (R60). -/
def cellIndex (r c : Nat) : Nat := 4 * r + c

/-- The indices of the cells of a board (R32). -/
def cellIndices : List Nat := List.range Config.nCells

/-- The larger of two codes. -/
def maxCode (a b : Code) : Code := if a.toNat < b.toNat then b else a

/-- `maxnib(v)`: the largest of the 16 nibbles (R35). -/
def maxnib (v : Board) : Code := cellIndices.foldl (fun m i => maxCode m (nib v i)) 0

/-! ### Axes and lines -/

/-- The axis of a direction (R133). -/
def axisOf : Dir → Axis
  | .left => .rows
  | .up => .cols
  | .right => .rows
  | .down => .cols

/-- The stride of an axis, in nibbles (R133). -/
def strideOf : Axis → Nat
  | .rows => 1
  | .cols => 4

/-- `ROW_MASK(r)` (R130). -/
def rowMask (r : Nat) : Board := 0x000000000000FFFF#64 <<< (16 * r)

/-- `COL_MASK(c)` (R130). -/
def colMask (c : Nat) : Board := 0x000F000F000F000F#64 <<< (4 * c)

/-- `MASK(axis, j)` (R135). -/
def lineMask : Axis → Nat → Board
  | .rows, j => rowMask j
  | .cols, j => colMask j

/-- How far the bits of line `j` lie above line 0's (R134, R135). -/
def lineShift : Axis → Nat → Nat
  | .rows, j => 16 * j
  | .cols, j => 4 * j

/-- `restride(x, stride)`: four nibbles that lie `stride` apart, gathered into a line (R131). -/
def restride (x : Board) (stride : Nat) : Line :=
  nib x (stride * 3) ++ nib x (stride * 2) ++ nib x (stride * 1) ++ nib x (stride * 0)

/-- One nibble of a line, at its stride position in a zero board (R132). -/
def spreadNib (n : Line) (stride i : Nat) : Board := (nib n i).setWidth 64 <<< (4 * stride * i)

/-- `unrestride(n, stride)`: the nibbles of a line spread to stride positions (R132). -/
def unrestride (n : Line) (stride : Nat) : Board :=
  spreadNib n stride 0 ||| spreadNib n stride 1 ||| spreadNib n stride 2 ||| spreadNib n stride 3

/-- `line(B, axis, j)`: the natural line `j`, masked out, shifted down and gathered (R134). -/
def line (b : Board) (a : Axis) (j : Nat) : Line :=
  restride ((b &&& lineMask a j) >>> lineShift a j) (strideOf a)

/-- `place(n, axis, j)`: a natural line put back at line `j` of a zero board (R135). -/
def place (n : Line) : Axis → Nat → Board
  | .rows, j => n.setWidth 64 <<< (16 * j)
  | .cols, j => unrestride n 4 <<< (4 * j)

/-- Four lines of an axis put together: the bitwise OR of the placed lines (R191). -/
def placeAll (a : Axis) (m : Nat → Line) : Board :=
  place (m 0) a 0 ||| place (m 1) a 1 ||| place (m 2) a 2 ||| place (m 3) a 3

/-! ### The trailing edge -/

/-- `edge_cell(d, j)`: the cell index of the trailing-edge cell of line `j` (the table that opens
spec/43_board_engine.md). -/
def edgeCell : Dir → Nat → Nat
  | .left, j => 4 * j + 3
  | .up, j => 12 + j
  | .right, j => 4 * j
  | .down, j => j

/-- The list `E`: the lines, ascending, whose trailing-edge cell is empty (R195). -/
def emptyEdges (d : Dir) (b : Board) : List Nat :=
  (List.range Config.nLines).filter (fun j => nib b (edgeCell d j) == 0)

end Sys2Proof.Machine
end

