-- ==== Sys2Proof/Machine/Lines.lean ====
section
/-! DEFINITION. The line datapath (spec/41_line_datapath.md R136-R146): reversal, the merge rule, the
slide-and-merge function and the direction transform the tables are filled with. -/

namespace Sys2Proof.Machine

/-- A line from its tiles, `t0` in nibble 0 (R10). -/
def ofTiles (t0 t1 t2 t3 : Code) : Line := t3 ++ t2 ++ t1 ++ t0

/-- The tiles of a line, nibble 0 first (R10). -/
def tiles (l : Line) : List Code := [nib l 0, nib l 1, nib l 2, nib l 3]

/-- The line whose nibbles are the first four of a list; a missing one is 0. -/
def lineOfTiles (ts : List Code) : Line :=
  ofTiles (ts.getD 0 0) (ts.getD 1 0) (ts.getD 2 0) (ts.getD 3 0)

/-- `rev(L)` (R136). -/
def rev (l : Line) : Line := ofTiles (nib l 3) (nib l 2) (nib l 1) (nib l 0)

/-- `canon(n, d)`: the cell at the pushed end in nibble 0 (R137). -/
def canon (n : Line) : Dir → Line
  | .left => n
  | .up => n
  | .right => rev n
  | .down => rev n

/-- `mergeable(a, b)`: 1 beside 2, or equal codes from 3 to 14 (R138, R141). -/
def mergeable (a b : Code) : Bool :=
  (a == 1 && b == 2) || (a == 2 && b == 1) || (a == b && decide (3 ≤ a.toNat) && decide (a.toNat ≤ 14))

/-- `merged(a, b)` of a mergeable pair (R140). -/
def merged (a b : Code) : Code := if a == b then a + 1 else 3

/-- The scan of R142 over the tiles that are left, the one nearest the pushed end first: at the first
empty cell or mergeable pair everything behind moves one cell and the open end becomes 0. -/
def slideTiles : List Code → List Code
  | a :: b :: behind =>
    if a == 0 then
      (b :: behind) ++ [0]
    else if b != 0 && mergeable a b then
      merged a b :: (behind ++ [0])
    else
      a :: slideTiles (b :: behind)
  | [a] => [a]
  | [] => []

/-- `slide(L)` (R142): the ONE definition of the slide-and-merge rule (D2). -/
def slide (l : Line) : Line := lineOfTiles (slideTiles (tiles l))

/-- `T(d, n)`: the direction transform on natural lines (R146). -/
def transform (d : Dir) (n : Line) : Line := canon (slide (canon n d)) d

end Sys2Proof.Machine
end

