-- ==== Sys2Proof/Machine/Ops.lean ====
section
/-! DEFINITION. The named operations that the commands share: the LUT space (spec/20_memory.md R63-R65),
and how a command ends (spec/00_scope.md R11): with a response, or with an error
(spec/60_exceptions.md R220-R229). -/

namespace Sys2Proof.Machine

/-! ### The LUT space as memory -/

/-- The canonical form of what is listed from address `lo` on: addresses rise strictly and lie in the LUT
space. -/
def Memory.sortedFrom (lo : Nat) : Memory → Bool
  | [] => true
  | (a, _) :: m => decide (lo ≤ a) && decide (a < Config.lutSpace) && Memory.sortedFrom (a + 1) m

/-- The canonical form of the LUT space. A listed entry has valid bit 1 and an unlisted one 0, so no
listed entry equals what an unlisted address reads as. -/
def Memory.wf (m : Memory) : Bool := Memory.sortedFrom 0 m

/-- The data of a listed entry. -/
def Memory.lookup : Memory → Nat → Option Line
  | [], _ => none
  | (b, x) :: m, a => if a = b then some x else Memory.lookup m a

/-- A write that keeps the canonical form. -/
def Memory.write : Memory → Nat → Line → Memory
  | [], a, v => [(a, v)]
  | (b, x) :: m, a, v =>
    if a < b then (a, v) :: (b, x) :: m
    else if a = b then (a, v) :: m
    else (b, x) :: Memory.write m a v

/-- The address of `LUT[d]` entry `n` in the LUT space (R63). -/
def lutAddr (d : Dir) (n : Line) : Nat := d.toBits.toNat * Config.lutEntries + n.toNat

/-- `LutRead(d, n)` (R11): the valid bit and the data; the data of an entry that is not valid is
unspecified (R41), a free value. -/
def lutRead (s : State) (d : Dir) (n : Line) : Bool × Line :=
  match s.lut.lookup (lutAddr d n) with
  | some x => (true, x)
  | none => (false, Config.lutUnset s.epoch (lutAddr d n))

/-- `LutWrite(d, n, v)` (R11), which only the builder performs. -/
def lutWrite (m : Memory) (d : Dir) (n v : Line) : Memory := m.write (lutAddr d n) v

/-! ### The READY a command goes by -/

/-- STATUS.READY at the acceptance of the command that is taking its step. A command run on a state whose port
holds none is taken as issued in that state, so that acceptance says nothing more than STATUS.READY does. -/
def acceptedReady : Port → Bool
  | .busy _ _ _ ready => ready
  | .idle => true
  | .respond _ _ => true

/-- Whether a command that needs the tables may run: STATUS.READY was 1 when it was accepted
(spec/60_exceptions.md R224, spec/00_scope.md R22) and is 1 in its atomic step (the pseudocode of R190 and
R170). DESIGN CHOICE log 15: a command accepted before READY whose step falls after it, on which the two
disagree, is refused as R224 says. -/
def commandReady (s : State) : Bool := acceptedReady s.port && s.status.ready

/-! ### The end of a command -/

/-- `respond(err, data)` (R11): the port holds the response (R81). -/
def respond (err : ErrCode) (data : Data) (s : State) : State :=
  { s with port := .respond err data }

/-- STATUS.LAST_ERR is written (R221). -/
def setLastErr (err : ErrCode) (s : State) : State :=
  { s with status := { s.status with lastErr := err } }

/-- The end of a command that completes: LAST_ERR is OK and the response carries the data (R92, R221). -/
def complete (data : Data) (s : State) : State := respond .ok data (setLastErr .ok s)

/-- FAULT after an error: set by LUT_MISS, kept by every other (R223, R226). -/
def faultAfter : ErrCode → Bool → Bool
  | .lutMiss, _ => true
  | .ok, f => f
  | .illegalCommand, f => f
  | .notReady, f => f
  | .domain, f => f
  | .faulted, f => f
  | .reserved _, f => f

/-- `raise <Error>` (R11), the ONE way an error is taken (R223): LAST_ERR is the error, FAULT is set for
LUT_MISS alone (R226), the response carries the error and data 0, and nothing else changes. There is no
trap entry, so there is no return from one: the next command is accepted as usual (R229). -/
def raise (err : ErrCode) (s : State) : State :=
  respond err 0
    { s with status := { s.status with lastErr := err, fault := faultAfter err s.status.fault } }

end Sys2Proof.Machine
end

