-- ==== Sys2Proof/Machine/Flags.lean ====
section
/-! DEFINITION. STATUS: its 32-bit word (spec/10_state.md R36), its move-report fields (R36, R37) and the
codes of LAST_ERR (spec/60_exceptions.md R220). -/

namespace Sys2Proof.Machine

/-- The 4-bit code of an error (R220). -/
def ErrCode.code : ErrCode → BitVec 4
  | .ok => 0
  | .illegalCommand => 1
  | .notReady => 2
  | .domain => 3
  | .lutMiss => 4
  | .faulted => 5
  | .reserved k => BitVec.ofNat 4 (k.val + 6)

/-- One STATUS bit. -/
def flagBit (b : Bool) : BitVec 1 := BitVec.ofBool b

/-- The 32-bit STATUS register (R36), high fields first: reserved [31:24], EDGE_MASK, INS_POS, LAST_ERR,
the mirror of HIGHEST, LAST_DIR, reserved [5], DEFAULTED, INSERTED, CHANGED, FAULT, READY. -/
def State.statusWord (s : State) : BitVec 32 :=
  0#8 ++ s.status.edgeMask ++ s.status.insPos ++ s.status.lastErr.code ++ s.highest ++
    s.status.lastDir.toBits ++ 0#1 ++ flagBit s.status.defaulted ++ flagBit s.status.inserted ++
    flagBit s.status.changed ++ flagBit s.status.fault ++ flagBit s.status.ready

/-- The move-report fields, all cleared: what LOAD_BOARD leaves (R37, R183). -/
def Status.clearReport (st : Status) : Status :=
  { st with changed := false, inserted := false, defaulted := false, lastDir := .left, insPos := 0,
            edgeMask := 0 }

/-- The move-report fields of a no-op SWIPE in direction `d` (R193). -/
def Status.noopReport (d : Dir) (st : Status) : Status :=
  { st with changed := false, inserted := false, defaulted := false, lastDir := d, insPos := 0,
            edgeMask := 0 }

/-- EDGE_MASK: the list `E` as a bit set, `sum over j in E of 1 << j` (R190, R195). -/
def edgeMaskOf (edges : List Nat) : BitVec 4 := BitVec.ofNat 4 ((edges.map (fun j => 1 <<< j)).sum)

end Sys2Proof.Machine
end

