-- ==== Sys2Proof/Machine/Board.lean ====
section
/-! DEFINITION. The board engine: NOP, LOAD_BOARD, READ_BOARD, SWIPE with the insertion multiplexer, SCORE and
READ_STATUS (spec/43_board_engine.md R181-R212). -/

namespace Sys2Proof.Machine

/-- NOP (R181): a response and nothing else, LAST_ERR included. -/
def execNop (s : State) : Result := .next (respond .ok 0 s)

/-- The state LOAD_BOARD leaves before it responds (R183). -/
def loadBoard (v : Board) (s : State) : State :=
  { s with board := v, highest := maxnib v, status := s.status.clearReport }

/-- LOAD_BOARD (R183). -/
def execLoadBoard (v : Board) (s : State) : Result :=
  if s.status.fault then .next (raise .faulted s)
  else .next (complete 0 (loadBoard v s))

/-- READ_BOARD (R185): allowed in every state. -/
def execReadBoard (s : State) : Result := .next (complete s.board s)

/-! ### SWIPE -/

/-- The four lookups of a SWIPE, by line (R191). -/
def swipeLookup (d : Dir) (s : State) (j : Nat) : Bool × Line :=
  lutRead s d (line s.board (axisOf d) j)

/-- Whether all four entries read are valid (R192). -/
def lookupsValid (d : Dir) (s : State) : Bool :=
  (swipeLookup d s 0).1 && (swipeLookup d s 1).1 && (swipeLookup d s 2).1 && (swipeLookup d s 3).1

/-- The candidate board `C` (R191). -/
def candidate (d : Dir) (s : State) : Board := placeAll (axisOf d) (fun j => (swipeLookup d s j).2)

/-- What the insertion multiplexer makes of a candidate board (R190 from `F = C` on). -/
structure Insertion where
  board : Board
  inserted : Bool
  pos : Nat
  defaulted : Bool
  deriving DecidableEq, Repr

/-- The insertion multiplexer (R195, R196, R198): tile `t` into the empty trailing-edge cell that
`sel mod |E|` selects; no cell empty, the defensive case; tile 0, none (R85). -/
def insertTile (d : Dir) (t : Code) (sel : Sel) (c : Board) : Insertion :=
  let edges := emptyEdges d c
  if edges.length = 0 then
    { board := c, inserted := false, pos := 0, defaulted := true }
  else if t = 0 then
    { board := c, inserted := false, pos := 0, defaulted := false }
  else
    let pos := edgeCell d (edges.getD (sel.toNat % edges.length) 0)
    { board := setnib c pos t, inserted := true, pos := pos, defaulted := false }

/-- A no-op SWIPE (R193): only the move report and LAST_ERR change. -/
def swipeNoop (d : Dir) (s : State) : State :=
  complete s.board { s with status := s.status.noopReport d }

/-- A SWIPE that commits the candidate board `c` (R194-R198). -/
def swipeCommit (d : Dir) (t : Code) (sel : Sel) (c : Board) (s : State) : State :=
  let ins := insertTile d t sel c
  complete ins.board
    { s with
      board := ins.board
      highest := maxCode s.highest (maxnib ins.board)
      status :=
        { s.status with
          changed := true, inserted := ins.inserted, defaulted := ins.defaulted, lastDir := d,
          insPos := BitVec.ofNat 4 ins.pos, edgeMask := edgeMaskOf (emptyEdges d c) } }

/-- SWIPE (R190), the errors in the order of R225. READY is tested as `commandReady` has it: at the acceptance
and in the step (R224; DESIGN CHOICE log 15). -/
def execSwipe (d : Dir) (t : Code) (sel : Sel) (s : State) : Result :=
  if s.status.fault then .next (raise .faulted s)
  else if commandReady s = false then .next (raise .notReady s)
  else if lookupsValid d s = false then .next (raise .lutMiss s)
  else if candidate d s = s.board then .next (swipeNoop d s)
  else .next (swipeCommit d t sel (candidate d s) s)

/-! ### SCORE -/

/-- The score of one cell: `3^(n-2)` for a code `n >= 3`, else 0 (R206). -/
def cellScore (n : Code) : Nat := if 3 ≤ n.toNat then 3 ^ (n.toNat - 2) else 0

/-- The score of a board, on unbounded naturals (R205, R12). -/
def boardScore (b : Board) : Nat := (cellIndices.map (fun i => cellScore (nib b i))).sum

/-- The 32-bit score (R207). -/
def scoreWord (b : Board) : BitVec Config.scoreBits := BitVec.ofNat Config.scoreBits (boardScore b)

/-- SCORE (R205). -/
def execScore (s : State) : Result :=
  if s.status.fault then .next (raise .faulted s)
  else .next (complete ((scoreWord s.board).setWidth 64) s)

/-! ### READ_STATUS -/

/-- READ_STATUS (R212): STATUS as it stands; LAST_ERR is not written. -/
def execReadStatus (s : State) : Result := .next (respond .ok (s.statusWord.setWidth 64) s)

end Sys2Proof.Machine
end

