-- ==== Sys2Proof/Machine/Codec.lean ====
section
/-! DEFINITION. The tile codec and its commands ENCODE and DECODE (spec/40_codec.md R110-R117). -/

namespace Sys2Proof.Machine

/-- `face_of(n)` (R110). -/
def faceOf (n : Code) : Face :=
  if n.toNat ≤ 2 then n.setWidth 16 else 3#16 <<< (n.toNat - 3)

/-- The `k` in 0..12 with `v == 3 << k`, if there is one (R113). -/
def doublings (v : Face) : Option Nat := (List.range 13).find? (fun k => v.toNat == 3 <<< k)

/-- `code_of(v)` on its domain `V`, and none outside it (R113). -/
def codeOf (v : Face) : Option Code :=
  if v.toNat ≤ 2 then some (v.setWidth 4)
  else (doublings v).map (fun k => BitVec.ofNat 4 (k + 3))

/-- ENCODE (R115, R116). -/
def execEncode (face : Face) (s : State) : Result :=
  if s.status.fault then .next (raise .faulted s)
  else
    match codeOf face with
    | some code => .next (complete (code.setWidth 64) s)
    | none => .next (raise .domain s)

/-- DECODE (R117). -/
def execDecode (code : Code) (s : State) : Result :=
  if s.status.fault then .next (raise .faulted s)
  else .next (complete ((faceOf code).setWidth 64) s)

end Sys2Proof.Machine
end

