-- ==== Sys2Proof/Machine/Reserved.lean ====
section
/-! DEFINITION. The reserved opcodes 0x9 to 0xF: each raises ILLEGAL_COMMAND, whatever its other bits and
before any other check (spec/60_exceptions.md R222, R225; spec/30_encoding.md R90). -/

namespace Sys2Proof.Machine

/-- A word of a reserved opcode; none of its other bits has a meaning (R90, R222). -/
def illegalCommand (_rest : BitVec 28) (s : State) : Result := .next (raise .illegalCommand s)

/-- OP 0x9 (R222). -/
def execReserved9 (rest : BitVec 28) (s : State) : Result := illegalCommand rest s

/-- OP 0xA (R222). -/
def execReservedA (rest : BitVec 28) (s : State) : Result := illegalCommand rest s

/-- OP 0xB (R222). -/
def execReservedB (rest : BitVec 28) (s : State) : Result := illegalCommand rest s

/-- OP 0xC (R222). -/
def execReservedC (rest : BitVec 28) (s : State) : Result := illegalCommand rest s

/-- OP 0xD (R222). -/
def execReservedD (rest : BitVec 28) (s : State) : Result := illegalCommand rest s

/-- OP 0xE (R222). -/
def execReservedE (rest : BitVec 28) (s : State) : Result := illegalCommand rest s

/-- OP 0xF (R222). -/
def execReservedF (rest : BitVec 28) (s : State) : Result := illegalCommand rest s

end Sys2Proof.Machine
end

