-- ==== Sys2Proof/Machine/Tables.lean ====
section
/-! DEFINITION. The transition tables: the builder that fills them (spec/42_transition_tables.md R160-R163,
spec/70_reset_and_hazards.md R251) and the command LUT_READ (R170, R171). -/

namespace Sys2Proof.Machine

/-! ### The builder -/

/-- The direction of an address of the LUT space (R63). -/
def addrDir (a : Nat) : Dir := Dir.ofBits (BitVec.ofNat 2 (a / Config.lutEntries))

/-- The natural line of an address of the LUT space (R63). -/
def addrLine (a : Nat) : Line := BitVec.ofNat 16 (a % Config.lutEntries)

/-- The address the builder writes as its write number `k`: the order is free (R161, log 4). -/
def buildAddr (epoch k : Nat) : Nat :=
  if h : k < Config.lutSpace then (Config.buildOrder epoch ⟨k, h⟩).val else k

/-- One builder write, `LutWrite(d, n, T(d, n))` (R161). -/
def buildWrite (epoch : Nat) (m : Memory) (k : Nat) : Memory :=
  let a := buildAddr epoch k
  lutWrite m (addrDir a) (addrLine a) (transform (addrDir a) (addrLine a))

/-- The builder's writes number `k` to `k + count - 1`. -/
def buildWrites (epoch : Nat) (m : Memory) (k count : Nat) : Memory :=
  (List.range' k count).foldl (buildWrite epoch) m

/-- Whether this is the edge at which the build ends, `BUILD_LATENCY` edges after the release of reset
(R8, R251). -/
def buildEnds (b : Builder) : Bool := decide (Config.buildLatency ≤ b.edges + 1)

/-- The entries written once this edge's writes are done: all of them at the edge at which the build
ends, and before that any number that leaves one for later (R161, R162). -/
def buildUpTo (epoch : Nat) (b : Builder) : Nat :=
  if buildEnds b then Config.lutSpace
  else min (b.written + Config.buildBurst epoch (b.edges + 1)) (Config.lutSpace - 1)

/-- What the builder does at one rising edge of `clk` with `rst` = 0: while READY = 0 it writes entries,
and READY becomes 1 with the last of them (R161, R162); once READY = 1 it does nothing (R163). -/
def builderEdge (s : State) : State :=
  { s with
    lut :=
      if s.status.ready then s.lut
      else buildWrites s.epoch s.lut s.builder.written (buildUpTo s.epoch s.builder - s.builder.written)
    builder :=
      if s.status.ready then s.builder
      else { edges := s.builder.edges + 1, written := buildUpTo s.epoch s.builder }
    status := { s.status with ready := s.status.ready || buildEnds s.builder } }

/-! ### LUT_READ -/

/-- `{valid, data}`: the valid bit above the 16 data bits (R92). -/
def lutEntryWord (e : Bool × Line) : BitVec 17 := flagBit e.1 ++ e.2

/-- LUT_READ (R170): refused before READY, allowed while FAULT = 1 (R227). READY is tested as `commandReady`
has it: at the acceptance and in the step (R224; DESIGN CHOICE log 15). -/
def execLutRead (d : Dir) (n : Line) (s : State) : Result :=
  if commandReady s then .next (complete ((lutEntryWord (lutRead s d n)).setWidth 64) s)
  else .next (raise .notReady s)

end Sys2Proof.Machine
end

