-- ==== Sys2Proof/Machine/Dispatch.lean ====
section
/-! DEFINITION. The meaning of every command: the command's one atomic step (spec/00_scope.md R3, spec/10_state.md R43). -/

namespace Sys2Proof.Machine

def exec (i : Instr) (s : State) : Host.Outcome State Fault Refusal :=
  match i with
  | .nop => Sys2Proof.Machine.execNop s
  | .loadBoard board => Sys2Proof.Machine.execLoadBoard board s
  | .readBoard => Sys2Proof.Machine.execReadBoard s
  | .swipe dir tile sel => Sys2Proof.Machine.execSwipe dir tile sel s
  | .score => Sys2Proof.Machine.execScore s
  | .encode face => Sys2Proof.Machine.execEncode face s
  | .decode code => Sys2Proof.Machine.execDecode code s
  | .readStatus => Sys2Proof.Machine.execReadStatus s
  | .lutRead dir index => Sys2Proof.Machine.execLutRead dir index s
  | .reserved9 rest => Sys2Proof.Machine.execReserved9 rest s
  | .reservedA rest => Sys2Proof.Machine.execReservedA rest s
  | .reservedB rest => Sys2Proof.Machine.execReservedB rest s
  | .reservedC rest => Sys2Proof.Machine.execReservedC rest s
  | .reservedD rest => Sys2Proof.Machine.execReservedD rest s
  | .reservedE rest => Sys2Proof.Machine.execReservedE rest s
  | .reservedF rest => Sys2Proof.Machine.execReservedF rest s

end Sys2Proof.Machine
end

