-- ==== Sys2Proof/Machine/Cycle.lean ====
section
/-! DEFINITION. The ports and one rising edge of `clk`: the handshake of the command port, reset, and the
builder beside the command stream (spec/30_encoding.md R80, R81; spec/70_reset_and_hazards.md R250-R252;
spec/20_memory.md R70). -/

namespace Sys2Proof.Machine

/-! ### The output ports (R80) -/

/-- `cmd_ready`: 1 if and only if the phase is IDLE and `rst` = 0. -/
def cmdReady (s : State) (rst : Bool) : Bool := decide (s.port = .idle) && !rst

/-- `rsp_valid`, with `rsp_err` and `rsp_data` while it is 1: a response is presented if and only if the
phase is RESPOND. -/
def response (s : State) : Option (BitVec 4 × Data) :=
  match s.port with
  | .respond err data => some (err.code, data)
  | .idle => none
  | .busy _ _ _ _ => none

/-- `rsp_valid`. -/
def rspValid (s : State) : Bool := (response s).isSome

/-- `ready_o`, a copy of STATUS.READY (R230). -/
def readyO (s : State) : Bool := s.status.ready

/-- `fault_o`, a copy of STATUS.FAULT (R230). -/
def faultO (s : State) : Bool := s.status.fault

/-! ### One rising edge -/

/-- The input ports at the next edge: what the host has lined up, or nothing driven (log 2). -/
def nextPins (s : State) : Pins := s.inputs.headD Pins.quiet

/-- The state once that edge's inputs are used up. -/
def dropPins (s : State) : State := { s with inputs := s.inputs.tail }

/-- The atomic step of an accepted command: the decoded command's meaning, and ILLEGAL_COMMAND for a word
that is not legal (R89, R222). -/
def runCommand (w : CmdWord) (data : Data) (s : State) : Result :=
  match decode w data with
  | .ok i => exec i s
  | .error _ => .next (raise .illegalCommand s)

/-- The command port at an edge with `rst` = 0 (R81): IDLE accepts an offered command, sampling word, data and
STATUS.READY as it stands before the edge (R224; log 6 and 15); BUSY waits out `CMD_LATENCY(op)` and takes the
command's step; RESPOND waits for `rsp_ready`. -/
def portEdge (p : Pins) (s : State) : Result :=
  match s.port with
  | .idle =>
    if p.cmdValid then
      .next { s with port := .busy p.cmdWord p.cmdData (Config.cmdExtra (opField p.cmdWord))
                          s.status.ready }
    else .next s
  | .busy w data 0 _ => runCommand w data s
  | .busy w data (wait + 1) ready => .next { s with port := .busy w data wait ready }
  | .respond _ _ => if p.rspReady then .next { s with port := .idle } else .next s

/-- The builder's work at an edge, after the port's: a command that takes its step at this edge reads
STATUS.READY and the tables as they stood before it (log 6). -/
def withBuilder : Result → Result
  | .next t => .next (builderEdge t)
  | .fault r => .fault r
  | .refused r => .refused r

/-- An edge with `rst` = 1 (R250, R252): all state takes its reset value, whatever was going on. What the
host drives later is no state of the TSME's. -/
def resetEdge (s : State) : State :=
  { State.reset with inputs := s.inputs, epoch := s.epoch + 1 }

/-- One rising edge of `clk`. -/
def clockEdge (s : State) : Result :=
  if (nextPins s).rst then .next (resetEdge (dropPins s))
  else withBuilder (portEdge (nextPins s) (dropPins s))

/-! ### A command placed for the next edge -/

/-- The state in which a command has been accepted, with STATUS.READY as it stands, and takes its step at the
very next edge, the host driving nothing at that edge (log 7). -/
def presentCommand (w : CmdWord) (data : Data) (s : State) : State :=
  { s with port := .busy w data 0 s.status.ready, inputs := Pins.quiet :: s.inputs }

end Sys2Proof.Machine
end

