-- ==== Sys2Proof/Machine/Step.lean ====
section
/-! DEFINITION. One step of the machine: one rising edge of `clk`. -/

namespace Sys2Proof.Machine

/-- One step (spec/30_encoding.md R81, spec/70_reset_and_hazards.md R250, R251). -/
def step (s : State) : Host.Outcome State Fault Refusal := clockEdge s

/-- The command of a table word placed so that the very next step runs it: the TSME fetches nothing (R34),
so the command is put where an accepted one stands (log 7). -/
def State.withFetchWord (s : State) (nbits w : Nat) : State :=
  presentCommand (tableCmdWord nbits w) (tableCmdData nbits w) s

end Sys2Proof.Machine
end

