-- ==== Sys2Proof/Machine/Assembler.lean ====
section
/-! DEFINITION. The assembler (spec/30_encoding.md R93, R94): a line of text as a list of characters, the source
form it stands for, whose operands are still plain numbers, and the command it assembles to. -/

namespace Sys2Proof.Machine

/-- A direction in a source line: by name, or as 0 to 3 (R93). -/
inductive DirOperand where
  | name (d : Dir)
  | number (n : Nat)
  deriving DecidableEq, Repr

/-- A source line that stands for one command: the nine mnemonics (R93) and the pseudo-instructions CLEAR,
SLIDE and MOVE (R94). WAIT_READY is a host loop, not one command: see `waitReadyAgain`. -/
inductive Asm where
  | nop
  | loadBoard (board : Nat)
  | readBoard
  | swipe (dir : DirOperand) (tile sel : Nat)
  | score
  | encode (face : Nat)
  | decode (code : Nat)
  | readStatus
  | lutRead (dir : DirOperand) (index : Nat)
  | clear
  | slide (dir : DirOperand)
  | move (dir : DirOperand) (tile : Nat)
  deriving DecidableEq, Repr

/-- An operand as a field of `w` bits; one that does not fit is refused, never truncated (R93, D25). -/
def fitField (w n : Nat) : Option (BitVec w) := if n < 2 ^ w then some (BitVec.ofNat w n) else none

/-- A direction operand (R93). -/
def fitDir : DirOperand → Option Dir
  | .name d => some d
  | .number n => (fitField 2 n).map Dir.ofBits

/-- SWIPE with its operands. -/
def assembleSwipe (dir : DirOperand) (tile sel : Nat) : Option Instr :=
  match fitDir dir, fitField 4 tile, fitField 4 sel with
  | some d, some t, some s => some (.swipe d t s)
  | _, _, _ => none

/-- LUT_READ with its operands. -/
def assembleLutRead (dir : DirOperand) (index : Nat) : Option Instr :=
  match fitDir dir, fitField 16 index with
  | some d, some n => some (.lutRead d n)
  | _, _ => none

/-- The command of a source line, or none where an operand does not fit its field (R93, R94). -/
def assemble : Asm → Option Instr
  | .nop => some .nop
  | .loadBoard board => (fitField 64 board).map .loadBoard
  | .readBoard => some .readBoard
  | .swipe dir tile sel => assembleSwipe dir tile sel
  | .score => some .score
  | .encode face => (fitField 16 face).map .encode
  | .decode code => (fitField 4 code).map .decode
  | .readStatus => some .readStatus
  | .lutRead dir index => assembleLutRead dir index
  | .clear => some (.loadBoard 0)
  | .slide dir => assembleSwipe dir 0 0
  | .move dir tile => assembleSwipe dir tile 0

/-! ### The text of a line -/

/-- The mnemonics of R93 and the pseudo-instructions of R94 that are one command. -/
inductive Mnemonic where
  | nop
  | loadBoard
  | readBoard
  | swipe
  | score
  | encode
  | decode
  | readStatus
  | lutRead
  | clear
  | slide
  | move
  deriving DecidableEq, Repr

/-- How each is written, in capitals as R93 and R94 have them (log 12). -/
def mnemonicTable : List (List Char × Mnemonic) :=
  [ (['N', 'O', 'P'], .nop),
    (['L', 'O', 'A', 'D', '_', 'B', 'O', 'A', 'R', 'D'], .loadBoard),
    (['R', 'E', 'A', 'D', '_', 'B', 'O', 'A', 'R', 'D'], .readBoard),
    (['S', 'W', 'I', 'P', 'E'], .swipe),
    (['S', 'C', 'O', 'R', 'E'], .score),
    (['E', 'N', 'C', 'O', 'D', 'E'], .encode),
    (['D', 'E', 'C', 'O', 'D', 'E'], .decode),
    (['R', 'E', 'A', 'D', '_', 'S', 'T', 'A', 'T', 'U', 'S'], .readStatus),
    (['L', 'U', 'T', '_', 'R', 'E', 'A', 'D'], .lutRead),
    (['C', 'L', 'E', 'A', 'R'], .clear),
    (['S', 'L', 'I', 'D', 'E'], .slide),
    (['M', 'O', 'V', 'E'], .move) ]

/-- The direction names (R93). -/
def directionTable : List (List Char × Dir) :=
  [ (['L', 'E', 'F', 'T'], .left),
    (['U', 'P'], .up),
    (['R', 'I', 'G', 'H', 'T'], .right),
    (['D', 'O', 'W', 'N'], .down) ]

/-- The value of a digit in the given base, at most 16. -/
def digitValue (base : Nat) (c : Char) : Option Nat :=
  let n := c.toNat
  let v :=
    if 48 ≤ n ∧ n ≤ 57 then n - 48
    else if 65 ≤ n ∧ n ≤ 70 then n - 55
    else if 97 ≤ n ∧ n ≤ 102 then n - 87
    else base
  if v < base then some v else none

/-- The digits of a number, most significant first, after those already read. -/
def readDigits (base : Nat) : Nat → List Char → Option Nat
  | acc, [] => some acc
  | acc, c :: cs =>
    match digitValue base c with
    | some v => readDigits base (acc * base + v) cs
    | none => none

/-- A number, decimal or `0x` hexadecimal (R93). -/
def readNumber : List Char → Option Nat
  | [] => none
  | '0' :: 'x' :: [] => none
  | '0' :: 'x' :: c :: cs => readDigits 16 0 (c :: cs)
  | c :: cs => readDigits 10 0 (c :: cs)

/-- A direction, by name or as a number (R93). -/
def readDirection (cs : List Char) : Option DirOperand :=
  match directionTable.lookup cs with
  | some d => some (.name d)
  | none => (readNumber cs).map .number

/-- A text without the blanks at its two ends. -/
def trimBlanks (cs : List Char) : List Char :=
  ((cs.dropWhile (· == ' ')).reverse.dropWhile (· == ' ')).reverse

/-- The operands of a line, which commas separate (R93). -/
def splitOperands (cs : List Char) : List (List Char) :=
  if trimBlanks cs = [] then [] else (cs.splitOn ',').map trimBlanks

/-- The source line of a mnemonic and its operands; another number of operands is none. -/
def readOperands : Mnemonic → List (List Char) → Option Asm
  | .nop, [] => some .nop
  | .loadBoard, [b] => (readNumber b).map .loadBoard
  | .readBoard, [] => some .readBoard
  | .swipe, [d, t, s] => do some (.swipe (← readDirection d) (← readNumber t) (← readNumber s))
  | .score, [] => some .score
  | .encode, [f] => (readNumber f).map .encode
  | .decode, [c] => (readNumber c).map .decode
  | .readStatus, [] => some .readStatus
  | .lutRead, [d, n] => do some (.lutRead (← readDirection d) (← readNumber n))
  | .clear, [] => some .clear
  | .slide, [d] => (readDirection d).map .slide
  | .move, [d, t] => do some (.move (← readDirection d) (← readNumber t))
  | _, _ => none

/-- The source line of a text: its mnemonic, then its operands. -/
def readLine (text : List Char) : Option Asm :=
  let cs := trimBlanks text
  match mnemonicTable.lookup (cs.takeWhile (· != ' ')) with
  | some m => readOperands m (splitOperands (cs.dropWhile (· != ' ')))
  | none => none

/-- The command a line of text assembles to (R93, R94). -/
def assembleText (text : List Char) : Option Instr := (readLine text).bind assemble

/-! ### WAIT_READY -/

/-- WAIT_READY repeats READ_STATUS while this holds of its response data: bit 0 is 0 (R94). -/
def waitReadyAgain (rspData : Data) : Bool := !rspData.getLsbD 0

end Sys2Proof.Machine
end

