-- ==== Sys2Proof/Safety.lean ====
section
/-! DEFINITION. The terms claims are stated in: runs of several edges, tables that hold what the spec says,
and the invariant of the machine after its first reset. -/

namespace Sys2Proof.Machine

/-! ### Runs -/

/-- `k` rising edges. -/
def edges : Nat → State → Result
  | 0, s => .next s
  | k + 1, s =>
    match step s with
    | .next t => edges k t
    | .fault r => .fault r
    | .refused r => .refused r

/-- The host keeps `rst` low for the next `k` edges. -/
def ResetLow (k : Nat) (s : State) : Prop := ∀ p ∈ s.inputs.take k, p.rst = false

/-! ### Tables -/

/-- What every entry holds after the build (spec/42_transition_tables.md R160). -/
def TablesBuilt (s : State) : Prop := ∀ d n, lutRead s d n = (true, transform d n)

/-- Every entry reads the same in both states. -/
def SameTables (s t : State) : Prop := ∀ d n, lutRead t d n = lutRead s d n

/-! ### Lines -/

/-- The cell at index `i` along line `j` of an axis (spec/41_line_datapath.md R134). -/
def lineCell : Axis → Nat → Nat → Nat
  | .rows, j, i => cellIndex j i
  | .cols, j, i => cellIndex i j

/-- The number of tiles on a line (spec/41_line_datapath.md R144 law 2). -/
def tileCount (l : Line) : Nat := ((tiles l).filter (fun t => t != 0)).length

/-- The line can shift at position `i`: an empty cell in front of a tile further back (R144 law 6). -/
def CanShiftAt (l : Line) (i : Nat) : Prop := nib l (i - 1) = 0 ∧ ∃ k, i ≤ k ∧ k ≤ 3 ∧ nib l k ≠ 0

/-- The line can merge at position `i` (R144 law 6). -/
def CanMergeAt (l : Line) (i : Nat) : Prop :=
  nib l (i - 1) ≠ 0 ∧ nib l i ≠ 0 ∧ mergeable (nib l (i - 1)) (nib l i) = true

/-- The first point at which `slide` acts is a merge (R142): no empty cell and no mergeable pair in front
of it. -/
def MergesAt (l : Line) (i : Nat) : Prop :=
  CanMergeAt l i ∧ ∀ k, 1 ≤ k → k < i → nib l (k - 1) ≠ 0 ∧ ¬ CanMergeAt l k

/-! ### Words that are no command -/

/-- Every word of opcode `op` that sets a bit which that opcode's row wants 0 answers ILLEGAL_COMMAND with data
0, in every state, and changes LAST_ERR alone (spec/60_exceptions.md R222). -/
def RefusesStrayBits (op : BitVec 4) (mask : CmdWord) : Prop :=
  ∀ (w : CmdWord) (x : Data) (s : State), w.extractLsb' 0 4 = op → w &&& mask ≠ op.setWidth 32 →
    runCommand w x s = .next { s with status := { s.status with lastErr := .illegalCommand },
                                      port := .respond .illegalCommand 0 }

/-! ### The invariant -/

/-- What holds from the first reset on (each clause cites its rule). -/
structure MachineInv (s : State) : Prop where
  /-- the LUT space is in canonical form -/
  canonical : s.lut.wf = true
  /-- the valid entries are those the builder has written, each with its final value (R70, R74, R161) -/
  built : s.lut = buildWrites s.epoch [] 0 s.builder.written
  /-- READY = 1 only when every entry is written (R162) -/
  complete : s.status.ready = true → s.builder.written = Config.lutSpace
  /-- until then the build is within BUILD_LATENCY and an entry is left (R161, R162) -/
  building : s.status.ready = false →
    s.builder.written < Config.lutSpace ∧ s.builder.edges < Config.buildLatency
  /-- LUT_MISS is unreachable, so FAULT stays 0 and neither error is ever reported (R165) -/
  noFault : s.status.fault = false
  noErr : s.status.lastErr ≠ .lutMiss ∧ s.status.lastErr ≠ .faulted
  noErrResponse : ∀ data, s.port ≠ .respond .lutMiss data ∧ s.port ≠ .respond .faulted data
  /-- codes 6 to 15 are never produced (R220) -/
  noReserved : ∀ k, s.status.lastErr ≠ .reserved k ∧ ∀ data, s.port ≠ .respond (.reserved k) data
  /-- READY never falls without a reset, so one that a held command was accepted with is still 1 (R37, R42) -/
  accepted : ∀ w data wait, s.port = .busy w data wait true → s.status.ready = true
  /-- the defensive case is unreachable (R198) -/
  noDefault : s.status.defaulted = false
  /-- HIGHEST is at least every code on the board (R35) -/
  highest : ∀ i < 16, (nib s.board i).toNat ≤ s.highest.toNat
  /-- INS_POS is 0 when INSERTED = 0, and only a move that changed the board inserts (R36) -/
  insPos : s.status.inserted = false → s.status.insPos = 0
  insertedChanged : s.status.inserted = true → s.status.changed = true
  /-- EDGE_MASK is 0 unless the move changed the board, and then some edge cell was free (R36, R198) -/
  edgeMask : s.status.changed = true ↔ s.status.edgeMask ≠ 0

end Sys2Proof.Machine
end

