-- ==== Sys2Proof/Certificates/Slice0/Obligations.lean ====
section
/-! DEFINITION. The statements for the provers, from the numbered rules of spec/. A statement that gives a
command's next state gives ALL of it: every field that is not named is unchanged (its frame), the LUT
space included. -/

open Sys2Proof Sys2Proof.Machine

/-! ## Encoding -/

/-- R93's words of the nine commands, one reserved word and one word with an RSV bit set. -/
def Obligations.SpecWordsDecodeToTheirCommands : Prop :=
  decode 0x00000000 0 = .ok .nop ∧
  decode 0x00000001 0x2004000000330021 = .ok (.loadBoard 0x2004000000330021) ∧
  decode 0x00000002 0 = .ok .readBoard ∧
  decode 0x00001203 0 = .ok (.swipe .left 2 1) ∧
  decode 0x0000B313 0 = .ok (.swipe .up 3 11) ∧
  decode 0x00000004 0 = .ok .score ∧
  decode 0x00060005 0 = .ok (.encode 6) ∧
  decode 0x00000F06 0 = .ok (.decode 15) ∧
  decode 0x00000007 0 = .ok .readStatus ∧
  decode 0x21210028 0 = .ok (.lutRead .right 0x2121) ∧
  decode 0x00000009 0 = .ok (.reserved9 0) ∧
  decode 0x00000043 0 = .error (.mustBeZero 3 0x40)

/-- R87: a word is a command if and only if `(cmd_word & mask) == match`, and its operands are the fields of
R82 at the bits of that row. -/
def Obligations.OpcodeMapDecodesByMaskAndMatch : Prop :=
  ∀ (w : CmdWord) (x : Data),
    (decode w x = .ok .nop ↔ w &&& 0xFFFFFFFF = 0x00000000) ∧
    (∀ b, decode w x = .ok (.loadBoard b) ↔ w &&& 0xFFFFFFFF = 0x00000001 ∧ b = x) ∧
    (decode w x = .ok .readBoard ↔ w &&& 0xFFFFFFFF = 0x00000002) ∧
    (∀ d t r, decode w x = .ok (.swipe d t r) ↔
      w &&& 0xFFFF00CF = 0x00000003 ∧ d.toBits = w.extractLsb' 4 2 ∧ t = w.extractLsb' 8 4 ∧
        r = w.extractLsb' 12 4) ∧
    (decode w x = .ok .score ↔ w &&& 0xFFFFFFFF = 0x00000004) ∧
    (∀ f, decode w x = .ok (.encode f) ↔ w &&& 0x0000FFFF = 0x00000005 ∧ f = w.extractLsb' 16 16) ∧
    (∀ c, decode w x = .ok (.decode c) ↔ w &&& 0xFFFFF0FF = 0x00000006 ∧ c = w.extractLsb' 8 4) ∧
    (decode w x = .ok .readStatus ↔ w &&& 0xFFFFFFFF = 0x00000007) ∧
    (∀ d n, decode w x = .ok (.lutRead d n) ↔
      w &&& 0x0000FFCF = 0x00000008 ∧ d.toBits = w.extractLsb' 4 2 ∧ n = w.extractLsb' 16 16) ∧
    (∀ r, decode w x = .ok (.reserved9 r) ↔ w &&& 0xF = 0x9 ∧ r = w.extractLsb' 4 28) ∧
    (∀ r, decode w x = .ok (.reservedA r) ↔ w &&& 0xF = 0xA ∧ r = w.extractLsb' 4 28) ∧
    (∀ r, decode w x = .ok (.reservedB r) ↔ w &&& 0xF = 0xB ∧ r = w.extractLsb' 4 28) ∧
    (∀ r, decode w x = .ok (.reservedC r) ↔ w &&& 0xF = 0xC ∧ r = w.extractLsb' 4 28) ∧
    (∀ r, decode w x = .ok (.reservedD r) ↔ w &&& 0xF = 0xD ∧ r = w.extractLsb' 4 28) ∧
    (∀ r, decode w x = .ok (.reservedE r) ↔ w &&& 0xF = 0xE ∧ r = w.extractLsb' 4 28) ∧
    (∀ r, decode w x = .ok (.reservedF r) ↔ w &&& 0xF = 0xF ∧ r = w.extractLsb' 4 28)

/-- R89: legal words are those of exactly one command row, those of the written-out formula, and those that
decode to a legal command; any other word is refused with ILLEGAL_COMMAND and has no other effect; and no
word matches two rows of the map, the reserved ones included. -/
def Obligations.LegalWordIffExactlyOneCommandRow : Prop :=
  ∀ w : CmdWord,
    (legalWord w = true ↔ (commandRows.filter (fun r => r.accepts w)).length = 1) ∧
    (legalWord w = true ↔ (w.extractLsb' 0 4).toNat ≤ 8 ∧
      w &&& maskOf (w.extractLsb' 0 4) = patternOf (w.extractLsb' 0 4)) ∧
    (legalWord w = true ↔ ∀ x, ∃ i, WellFormed i ∧ decode w x = .ok i) ∧
    (legalWord w = false → ∀ x s, runCommand w x s =
      .next { s with status := { s.status with lastErr := .illegalCommand },
                     port := .respond .illegalCommand 0 }) ∧
    (opcodeRows.filter (fun r => r.accepts w)).length ≤ 1

/-- Decoding an encoded instruction gives it back, every operand at every value, reserved rows included. -/
def Obligations.DecodeOfEncodeIsIdentity : Prop :=
  ∀ i : Instr, decode (encode i).1 (encode i).2 = .ok i

/-- Encoding a decoded instruction gives its word back, and LOAD_BOARD's data. -/
def Obligations.EncodeOfDecodeIsTheWord : Prop :=
  ∀ w x i, decode w x = .ok i → (encode i).1 = w ∧ ∀ b, i = .loadBoard b → (encode i).2 = x

/-- R93, R94: the words the assembler makes, the operands it refuses instead of truncating, and the
pseudo-instructions. R93 names tile, sel, code, face and index as the operands it refuses; that a LOAD_BOARD
operand of 2^64 or more and a direction number above 3 are refused too is the model's DESIGN CHOICE log 12. -/
def Obligations.AssemblerWordsAndRefusals : Prop :=
  (assemble .nop).map encodeWord = some 0x00000000 ∧
  (∀ b < 2 ^ 64, (assemble (.loadBoard b)).map encode = some (0x00000001, BitVec.ofNat 64 b)) ∧
  (assemble .readBoard).map encodeWord = some 0x00000002 ∧
  (∀ d t r, t < 16 → r < 16 → (assemble (.swipe (.name d) t r)).map encodeWord =
    some (BitVec.ofNat 32 (0x3 + d.toBits.toNat * 2 ^ 4 + t * 2 ^ 8 + r * 2 ^ 12))) ∧
  (assemble .score).map encodeWord = some 0x00000004 ∧
  (∀ f < 65536, (assemble (.encode f)).map encodeWord = some (BitVec.ofNat 32 (0x5 + f * 2 ^ 16))) ∧
  (∀ c < 16, (assemble (.decode c)).map encodeWord = some (BitVec.ofNat 32 (0x6 + c * 2 ^ 8))) ∧
  (assemble .readStatus).map encodeWord = some 0x00000007 ∧
  (∀ d n, n < 65536 → (assemble (.lutRead (.name d) n)).map encodeWord =
    some (BitVec.ofNat 32 (0x8 + d.toBits.toNat * 2 ^ 4 + n * 2 ^ 16))) ∧
  (∀ d t r, 15 < t ∨ 15 < r → assemble (.swipe d t r) = none) ∧
  (∀ c, 15 < c → assemble (.decode c) = none) ∧
  (∀ f, 0xFFFF < f → assemble (.encode f) = none) ∧
  (∀ d n, 0xFFFF < n → assemble (.lutRead d n) = none) ∧
  (∀ b, 2 ^ 64 ≤ b → assemble (.loadBoard b) = none) ∧
  (∀ k, 3 < k → (∀ t r, assemble (.swipe (.number k) t r) = none) ∧
    ∀ n, assemble (.lutRead (.number k) n) = none) ∧
  ([0, 1, 2, 3].map (fun k => fitDir (.number k)) = [some .left, some .up, some .right, some .down]) ∧
  assemble .clear = assemble (.loadBoard 0) ∧
  (∀ d, assemble (.slide d) = assemble (.swipe d 0 0)) ∧
  (∀ d t, assemble (.move d t) = assemble (.swipe d t 0)) ∧
  (∀ s t x, exec .readStatus s = .next t → t.port = .respond .ok x → waitReadyAgain x = !s.status.ready)

/-! ## One rising edge -/

/-- When an accepted command's latency is over, the edge is the decoded command's step (ILLEGAL_COMMAND for a
word that decodes to none), then the builder's work at that edge (DESIGN CHOICE log 6). -/
def Obligations.StepRunsTheDecodedCommand : Prop :=
  ∀ s w x r, s.port = .busy w x 0 r → (nextPins s).rst = false →
    (∀ i, decode w x = .ok i →
      ∃ t, exec i (dropPins s) = .next t ∧ step s = .next (builderEdge t)) ∧
    (∀ e, decode w x = .error e →
      step s = .next (builderEdge (raise .illegalCommand (dropPins s))))

/-- R81 steps 1 and 2: an idle port with `rst` = 0 accepts an offered command, sampling word and data at that
edge, and then waits `CMD_LATENCY(op)` cycles; offered nothing, it stays idle. (Inputs as a list in State,
the counting of the latency and the READY that is sampled with the command are DESIGN CHOICES, log 2, 3, 6 and
15.) -/
def Obligations.IdlePortAcceptsOfferedCommand : Prop :=
  ∀ s p rest, s.port = .idle → s.inputs = p :: rest → p.rst = false →
    (p.cmdValid = true → cmdReady s p.rst = true ∧ step s = .next (builderEdge
      { s with inputs := rest, port := .busy p.cmdWord p.cmdData
                 (Config.cmdLatency (p.cmdWord.extractLsb' 0 4) - 1) s.status.ready })) ∧
    (p.cmdValid = false → step s = .next (builderEdge { s with inputs := rest }))

/-- R81 step 4: a response is held, and the command port takes nothing, until the first edge with
`rsp_ready` = 1. -/
def Obligations.ResponseIsHeldUntilTaken : Prop :=
  ∀ s e x p rest, s.port = .respond e x → s.inputs = p :: rest → p.rst = false →
    cmdReady s p.rst = false ∧ response s = some (e.code, x) ∧
    (p.rspReady = false → step s = .next (builderEdge { s with inputs := rest })) ∧
    (p.rspReady = true → step s = .next (builderEdge { s with inputs := rest, port := .idle }))

/-- R263: outside IDLE the offered word, data and `cmd_valid` are not sampled. -/
def Obligations.CommandPinsIgnoredOutsideIdle : Prop :=
  ∀ (s : State) (p p' : Pins) (rest : List Pins), s.port ≠ .idle → p.rst = p'.rst → p.rspReady = p'.rspReady →
    step { s with inputs := p :: rest } = step { s with inputs := p' :: rest }

/-- R81, R237, R43: an accepted command takes its step exactly `CMD_LATENCY(op)` edges after its acceptance,
BOARD, HIGHEST and STATUS less READY untouched until then, and has then responded. The READY it goes by in its
step is that of its acceptance: a SWIPE or LUT_READ accepted while READY = 0 has then answered NOT_READY, though
READY may have risen meanwhile (R224). (The counting in edges, READY as it stands before the edge of the
acceptance, and that this READY decides are DESIGN CHOICES, log 3, 6 and 15.) -/
def Obligations.AcceptedCommandRespondsAfterItsLatency : Prop :=
  ∀ s p rest, s.port = .idle → s.inputs = p :: rest → p.cmdValid = true →
    ResetLow (Config.cmdLatency (p.cmdWord.extractLsb' 0 4) + 1) s →
    ∃ u t e x,
      edges (Config.cmdLatency (p.cmdWord.extractLsb' 0 4)) s = .next u ∧
      u.port = .busy p.cmdWord p.cmdData 0 s.status.ready ∧ commandReady u = s.status.ready ∧
      u.board = s.board ∧ u.highest = s.highest ∧
      u.status = { s.status with ready := u.status.ready } ∧
      edges (Config.cmdLatency (p.cmdWord.extractLsb' 0 4) + 1) s = .next t ∧
      t.port = .respond e x ∧
      (s.status.ready = false → ∀ i, decode p.cmdWord p.cmdData = .ok i →
        (s.status.fault = false ∧ ∃ d tl r, i = .swipe d tl r) ∨ (∃ d n, i = .lutRead d n) →
        e = .notReady ∧ x = 0 ∧ t.board = s.board ∧ t.highest = s.highest ∧
        t.status = { s.status with ready := t.status.ready, lastErr := .notReady })

/-- R45, R250, R252, R253: an edge with `rst` = 1 gives every piece of state its reset value, from any state:
before the first reset, mid-command, mid-build, after a fault. -/
def Obligations.ResetEdgeGivesResetValues : Prop :=
  ∀ s, (nextPins s).rst = true → ∃ t, step s = .next t ∧
    t.board = 0x0000000000000000 ∧ t.highest = 0 ∧ t.status.ready = false ∧ t.status.fault = false ∧
    t.status.changed = false ∧ t.status.inserted = false ∧ t.status.defaulted = false ∧
    t.status.lastDir.toBits = 0 ∧ t.status.lastErr = .ok ∧ t.status.insPos = 0 ∧
    t.status.edgeMask = 0 ∧ t.statusWord = 0 ∧
    (∀ d n, (lutRead t d n).1 = false) ∧
    t.builder.edges = 0 ∧ t.builder.written = 0 ∧ t.port = .idle ∧ response t = none

/-- R236: with the build done, an idle machine whose host drives nothing holds its state, for any number of
edges. -/
def Obligations.IdleMachineHoldsItsState : Prop :=
  ∀ k s, s.port = .idle → s.inputs = [] → s.status.ready = true → edges k s = .next s

/-! ## The tables -/

/-- R162: READY becomes 1 in the step of the builder's last write and not before, and READY = 1 implies that
every entry is valid and holds `T(d, n)`. -/
def Obligations.ReadyExactlyWhenTablesBuilt : Prop :=
  (∀ s t, MachineInv s → step s = .next t → s.status.ready = false → t.status.ready = true →
    s.builder.written < Config.lutSpace ∧ t.builder.written = Config.lutSpace) ∧
  (∀ s t, MachineInv s → step s = .next t → s.status.ready = false → t.status.ready = false →
    t.builder.written < Config.lutSpace) ∧
  (∀ s, MachineInv s → s.status.ready = true → ∀ d n, lutRead s d n = (true, transform d n))

/-- R251, R237, R161: from any state of a build, with `rst` low, READY rises at edge number BUILD_LATENCY
after the release and at none before it, whatever commands run beside it, and the tables are then built. (The
counting in edges is a DESIGN CHOICE, log 3.) -/
def Obligations.BuildCompletesInBuildLatency : Prop :=
  ∀ s, MachineInv s → s.status.ready = false → ResetLow (Config.buildLatency - s.builder.edges) s →
    (∀ k < Config.buildLatency - s.builder.edges, ∃ u, edges k s = .next u ∧ u.status.ready = false) ∧
    ∃ t, edges (Config.buildLatency - s.builder.edges) s = .next t ∧ t.status.ready = true ∧
      TablesBuilt t

/-- R163: once READY = 1 no edge without a reset changes an entry; no edge without a reset, during the build
either, clears a valid bit or changes an entry that is valid; no command ever writes one; and a reset clears
every valid bit and starts a new build. -/
def Obligations.TablesImmutableAfterReady : Prop :=
  (∀ s t, s.status.ready = true → (nextPins s).rst = false → step s = .next t →
    t.status.ready = true ∧ SameTables s t) ∧
  (∀ s t d n, (nextPins s).rst = false → step s = .next t → (lutRead s d n).1 = true →
    (lutRead t d n).1 = true ∧ (MachineInv s → lutRead t d n = lutRead s d n)) ∧
  (∀ i s t, exec i s = .next t → SameTables s t) ∧
  (∀ s t, (nextPins s).rst = true → step s = .next t →
    t.status.ready = false ∧ t.builder = ⟨0, 0⟩ ∧ ∀ d n, (lutRead t d n).1 = false)

/-- R74, I7: the finished tables are the same whatever order the builder wrote them in. -/
def Obligations.BuildOrderIsUnobservable : Prop :=
  ∀ e e', buildWrites e [] 0 Config.lutSpace = buildWrites e' [] 0 Config.lutSpace

/-- The LUT space keeps its canonical form (the model's own, log 8) at every edge, from every state that has
it. -/
def Obligations.LutSpaceStaysCanonical : Prop :=
  ∀ s t, s.lut.wf = true → step s = .next t → t.lut.wf = true

/-- R170: LUT_READ, its encoding, its effect with READY = 1 (FAULT = 1 too) and without, and its corner
cases and example once the tables are built. (READY = 1 is `commandReady`: also at the acceptance, R224, log
15.) -/
def Obligations.LutReadReturnsTheEntry : Prop :=
  (∀ w x d n, decode w x = .ok (.lutRead d n) ↔
    w &&& 0x0000FFCF = 0x00000008 ∧ d.toBits = w.extractLsb' 4 2 ∧ n = w.extractLsb' 16 16) ∧
  (∀ s d n, commandReady s = true → ∃ x : Data,
    exec (.lutRead d n) s = .next { s with status := { s.status with lastErr := .ok },
                                           port := .respond .ok x } ∧
    x.extractLsb' 0 16 = (lutRead s d n).2 ∧ x.getLsbD 16 = (lutRead s d n).1 ∧
    x.extractLsb' 17 47 = 0) ∧
  RefusesStrayBits 0x8 0x0000FFCF ∧ decode 0x00210008 0 = .ok (.lutRead .left 0x0021) ∧
  (∀ s d n, s.status.ready = false → exec (.lutRead d n) s =
    .next { s with status := { s.status with lastErr := .notReady }, port := .respond .notReady 0 }) ∧
  (∀ s d, MachineInv s → commandReady s = true → ∀ n, ∃ t : State, ∃ x : Data,
    exec (.lutRead d n) s = .next t ∧ t.port = .respond .ok x ∧ x.getLsbD 16 = true ∧
    (n = 0x0000 → x = 0x10000) ∧ (n = 0xFFFF → x = 0x1FFFF) ∧
    (n = 0x0021 → d = .left → x = 0x00010003))

/-! ## The invariant -/

/-- The invariant holds right after reset. -/
def Obligations.ResetStateMeetsTheInvariant : Prop := MachineInv State.reset

/-- Every edge keeps the invariant: built tables, no LUT_MISS (R165), no defensive case (R198), HIGHEST at
least every code on the board (R35), and the move report's own rules (R36). -/
def Obligations.EveryStepKeepsTheInvariant : Prop :=
  ∀ s t, MachineInv s → step s = .next t → MachineInv t

/-- R165: with READY = 1 the four entries a SWIPE reads are valid, so no command ever answers LUT_MISS. -/
def Obligations.LutMissIsUnreachable : Prop :=
  ∀ s, MachineInv s → (s.status.ready = true → ∀ d, lookupsValid d s = true) ∧
    ∀ i t x, exec i s = .next t → t.port ≠ .respond .lutMiss x ∧ t.status.fault = false

/-! ## Commands: NOP, LOAD_BOARD, READ_BOARD, READ_STATUS -/

/-- R181: the all-zero word, and no effect but the response, in every state. -/
def Obligations.NopOnlyResponds : Prop :=
  (∀ w x, decode w x = .ok .nop ↔ w = 0x00000000) ∧
  ∀ s, exec .nop s = .next { s with port := .respond .ok 0 }

/-- R183: LOAD_BOARD, its encoding, its effect (legal while READY = 0), HIGHEST as the largest code of the
loaded board, FAULTED, corner cases and example. -/
def Obligations.LoadBoardStartsAGame : Prop :=
  (∀ w x b, decode w x = .ok (.loadBoard b) ↔ w = 0x00000001 ∧ b = x) ∧
  (∀ s v, s.status.fault = false → ∃ h : Code,
    exec (.loadBoard v) s = .next { s with
      board := v, highest := h,
      status := { s.status with changed := false, inserted := false, defaulted := false,
                                lastDir := .left, insPos := 0, edgeMask := 0, lastErr := .ok },
      port := .respond .ok 0 } ∧
    (∀ i < 16, (nib v i).toNat ≤ h.toNat) ∧ (∃ i < 16, nib v i = h)) ∧
  (∀ s v, s.status.fault = true → exec (.loadBoard v) s =
    .next { s with status := { s.status with lastErr := .faulted }, port := .respond .faulted 0 }) ∧
  RefusesStrayBits 0x1 0xFFFFFFFF ∧
  maxnib 0 = 0 ∧ (∀ v, (∃ i < 16, nib v i = 15) → maxnib v = 15) ∧ maxnib 0x2004000000330021 = 4

/-- R185: READ_BOARD, its encoding, its effect in every state, the value right after reset and the example. -/
def Obligations.ReadBoardReturnsTheBoard : Prop :=
  (∀ w x, decode w x = .ok .readBoard ↔ w = 0x00000002) ∧
  (∀ s, exec .readBoard s = .next { s with status := { s.status with lastErr := .ok },
                                           port := .respond .ok s.board }) ∧
  RefusesStrayBits 0x2 0xFFFFFFFF ∧
  (∃ t, exec .readBoard State.reset = .next t ∧ t.port = .respond .ok 0) ∧
  (∀ s t u, s.status.fault = false → exec (.loadBoard 0x2004000000330021) s = .next t →
    exec .readBoard t = .next u → u.port = .respond .ok 0x2004000000330021)

/-- R212, and R36's layout: READ_STATUS, its encoding, its answer (STATUS, each field at its bits and the
reserved bits 0), that it writes nothing, its values after reset and after the build, and the example. -/
def Obligations.ReadStatusReturnsEveryField : Prop :=
  (∀ w x, decode w x = .ok .readStatus ↔ w = 0x00000007) ∧
  (∀ s, ∃ x : BitVec 32, exec .readStatus s = .next { s with port := .respond .ok (x.setWidth 64) } ∧
    x.getLsbD 0 = s.status.ready ∧ x.getLsbD 1 = s.status.fault ∧ x.getLsbD 2 = s.status.changed ∧
    x.getLsbD 3 = s.status.inserted ∧ x.getLsbD 4 = s.status.defaulted ∧ x.getLsbD 5 = false ∧
    x.extractLsb' 6 2 = s.status.lastDir.toBits ∧ x.extractLsb' 8 4 = s.highest ∧
    x.extractLsb' 12 4 = s.status.lastErr.code ∧ x.extractLsb' 16 4 = s.status.insPos ∧
    x.extractLsb' 20 4 = s.status.edgeMask ∧ x.extractLsb' 24 8 = 0) ∧
  RefusesStrayBits 0x7 0xFFFFFFFF ∧
  (∃ t, exec .readStatus State.reset = .next t ∧ t.port = .respond .ok 0) ∧
  (∀ s, s.highest = 0 → s.status = { Status.reset with ready := true } →
    exec .readStatus s = .next { s with port := .respond .ok 0x1 }) ∧
  (∀ s, s.highest = 4 →
    s.status = { Status.reset with ready := true, changed := true, inserted := true, insPos := 7,
                                   edgeMask := 0xF } →
    exec .readStatus s = .next { s with port := .respond .ok 0x00F7040D }) ∧
  [Dir.left, .up, .right, .down].map Dir.toBits = [0, 1, 2, 3] ∧
  [ErrCode.ok, .illegalCommand, .notReady, .domain, .lutMiss, .faulted].map ErrCode.code =
    [0, 1, 2, 3, 4, 5] ∧
  (List.finRange 10).map (fun k => (ErrCode.reserved k).code) = [6, 7, 8, 9, 10, 11, 12, 13, 14, 15]

/-! ## Commands: SWIPE -/

/-- R191: a SWIPE's candidate board is the OR of the four placed results of the lookups; with READY = 1 it has,
line by line along the direction's axis, the direction transform of the old line. -/
def Obligations.SwipeMovesEveryLineByItsTransform : Prop :=
  (∀ s d, candidate d s =
    place (lutRead s d (line s.board (axisOf d) 0)).2 (axisOf d) 0 |||
    place (lutRead s d (line s.board (axisOf d) 1)).2 (axisOf d) 1 |||
    place (lutRead s d (line s.board (axisOf d) 2)).2 (axisOf d) 2 |||
    place (lutRead s d (line s.board (axisOf d) 3)).2 (axisOf d) 3) ∧
  ∀ s d, MachineInv s → s.status.ready = true →
    (∀ j < 4, line (candidate d s) (axisOf d) j = transform d (line s.board (axisOf d) j)) ∧
    candidate d s =
      place (transform d (line s.board (axisOf d) 0)) (axisOf d) 0 |||
      place (transform d (line s.board (axisOf d) 1)) (axisOf d) 1 |||
      place (transform d (line s.board (axisOf d) 2)) (axisOf d) 2 |||
      place (transform d (line s.board (axisOf d) 3)) (axisOf d) 3

/-- R190 as a whole, after the build: a SWIPE makes the move `C`, each line of the axis by its transform. If
`C` is the old board it is a no-op; if not, some trailing-edge cell of `C` is empty, the tile (if it is one)
goes into the one the selector picks, and BOARD, HIGHEST, the move report and the response follow. (`After the
build` is `commandReady`: READY = 1 at the acceptance too, log 15.) -/
def Obligations.SwipeAfterTheBuildPlaysTheMove : Prop :=
  ∀ s d t r, MachineInv s → commandReady s = true →
    ∃ C : Board, (∀ j < 4, line C (axisOf d) j = transform d (line s.board (axisOf d) j)) ∧
      (C = s.board → exec (.swipe d t r) s = .next { s with
        status := { s.status with changed := false, inserted := false, defaulted := false, insPos := 0,
                                  edgeMask := 0, lastDir := d, lastErr := .ok },
        port := .respond .ok s.board }) ∧
      (C ≠ s.board → ∃ (k : Nat) (f : Board) (h : Code) (m : BitVec 4),
        (emptyEdges d C)[r.toNat % (emptyEdges d C).length]? = some k ∧
        f = (if t = 0 then C else setnib C (edgeCell d k) t) ∧
        h.toNat = max s.highest.toNat (maxnib f).toNat ∧
        (∀ j < 4, m.getLsbD j = decide (nib C (edgeCell d j) = 0)) ∧
        exec (.swipe d t r) s = .next { s with
          board := f, highest := h,
          status := { s.status with
            changed := true, inserted := decide (t ≠ 0), defaulted := false, lastDir := d,
            insPos := if t = 0 then 0 else BitVec.ofNat 4 (edgeCell d k), edgeMask := m,
            lastErr := .ok },
          port := .respond .ok f })

/-- R147: the new line `j` depends on the old line `j` and the direction alone, in any two states with built
tables. -/
def Obligations.SwipeLanesAreIndependent : Prop :=
  ∀ s s' d j, j < 4 → TablesBuilt s → TablesBuilt s' →
    line s.board (axisOf d) j = line s'.board (axisOf d) j →
    line (candidate d s) (axisOf d) j = line (candidate d s') (axisOf d) j

/-- R193: a no-op swipe leaves BOARD and HIGHEST, consumes no tile, and reports the move as such. -/
def Obligations.NoopSwipeConsumesNothing : Prop :=
  ∀ s d t r, s.status.fault = false → commandReady s = true → lookupsValid d s = true →
    candidate d s = s.board →
    exec (.swipe d t r) s = .next { s with
      status := { s.status with changed := false, inserted := false, defaulted := false, insPos := 0,
                                edgeMask := 0, lastDir := d, lastErr := .ok },
      port := .respond .ok s.board }

/-- R195, R196: a SWIPE that changes the board, with an empty trailing-edge cell: the tile goes into cell
`edge_cell(d, E[s mod |E|])` of the candidate board and no other cell changes, or TILE = 0 inserts nothing;
EDGE_MASK is `E` as a bit set and HIGHEST the largest of its old value and the final board's codes. -/
def Obligations.SwipeCommitsMoveAndInsertsTile : Prop :=
  (∀ d b, (emptyEdges d b).Pairwise (· < ·) ∧
    ∀ j, j ∈ emptyEdges d b ↔ j < 4 ∧ nib b (edgeCell d j) = 0) ∧
  ∀ s d t r, s.status.fault = false → commandReady s = true → lookupsValid d s = true →
    candidate d s ≠ s.board → emptyEdges d (candidate d s) ≠ [] →
    ∃ (k : Nat) (f : Board) (h : Code) (m : BitVec 4),
      (emptyEdges d (candidate d s))[r.toNat % (emptyEdges d (candidate d s)).length]? = some k ∧
      (∀ i < 16, nib f i = if t ≠ 0 ∧ i = edgeCell d k then t else nib (candidate d s) i) ∧
      (∀ i < 16, (nib f i).toNat ≤ h.toNat) ∧ s.highest.toNat ≤ h.toNat ∧
      (h = s.highest ∨ ∃ i < 16, nib f i = h) ∧
      (∀ j < 4, m.getLsbD j = decide (j ∈ emptyEdges d (candidate d s))) ∧
      exec (.swipe d t r) s = .next { s with
        board := f, highest := h,
        status := { s.status with
          changed := true, inserted := decide (t ≠ 0), defaulted := false, lastDir := d,
          insPos := if t ≠ 0 then BitVec.ofNat 4 (edgeCell d k) else 0, edgeMask := m,
          lastErr := .ok },
        port := .respond .ok f }

/-- R85: TILE = 0 is legal and means no tile: the move is made and nothing is inserted. -/
def Obligations.SwipeWithTileZeroInsertsNothing : Prop :=
  (∀ w x d r, decode w x = .ok (.swipe d 0 r) → legalWord w = true) ∧
  ∀ s d r, s.status.fault = false → commandReady s = true → lookupsValid d s = true →
    ∃ t, exec (.swipe d 0 r) s = .next t ∧ t.board = candidate d s ∧ t.status.inserted = false ∧
      t.port = .respond .ok (candidate d s)

/-- R198: with no empty trailing-edge cell a changed board is committed without a tile, OK and DEFAULTED = 1;
and with built tables that case is unreachable, because a changed line frees its trailing cell. -/
def Obligations.DefensiveCaseIsDefinedAndUnreachable : Prop :=
  (∀ s d t r, s.status.fault = false → commandReady s = true → lookupsValid d s = true →
    candidate d s ≠ s.board → emptyEdges d (candidate d s) = [] →
    ∃ h : Code, h.toNat = max s.highest.toNat (maxnib (candidate d s)).toNat ∧
      exec (.swipe d t r) s = .next { s with
        board := candidate d s, highest := h,
        status := { s.status with
          changed := true, inserted := false, defaulted := true, lastDir := d, insPos := 0, edgeMask := 0,
          lastErr := .ok },
        port := .respond .ok (candidate d s) }) ∧
  (∀ s d, TablesBuilt s → candidate d s ≠ s.board → emptyEdges d (candidate d s) ≠ [])

/-- R192, R226: a SWIPE that reads an entry with valid bit 0 answers LUT_MISS, sets FAULT and writes neither
BOARD nor HIGHEST nor the move report; FAULT is sticky: no command and no edge without a reset clears it, and
while it is 1 the commands of the refused set answer FAULTED. -/
def Obligations.LutMissSetsStickyFault : Prop :=
  (∀ s d t r, s.status.fault = false → commandReady s = true →
    (∃ j < 4, (lutRead s d (line s.board (axisOf d) j)).1 = false) →
    exec (.swipe d t r) s = .next { s with
      status := { s.status with fault := true, lastErr := .lutMiss }, port := .respond .lutMiss 0 }) ∧
  (∀ i s t, exec i s = .next t → s.status.fault = true → t.status.fault = true) ∧
  (∀ s t, step s = .next t → s.status.fault = true → (nextPins s).rst = false →
    t.status.fault = true) ∧
  (∀ s t, step s = .next t → (nextPins s).rst = true → t.status.fault = false) ∧
  (∀ s i, s.status.fault = true →
    (∃ v, i = Instr.loadBoard v) ∨ (∃ d t r, i = .swipe d t r) ∨ i = .score ∨ (∃ f, i = .encode f) ∨
      (∃ c, i = .decode c) →
    exec i s = .next { s with status := { s.status with lastErr := .faulted },
                              port := .respond .faulted 0 })

/-- R197: after a committed move HIGHEST is the larger of its old value and the final board's largest code, a
no-op leaves it, and no command but LOAD_BOARD lowers it. -/
def Obligations.HighestNeverFallsDuringPlay : Prop :=
  (∀ s t d tl r, exec (.swipe d tl r) s = .next t → t.status.lastErr = .ok →
    (t.status.changed = true → t.highest.toNat = max s.highest.toNat (maxnib t.board).toNat) ∧
    (t.status.changed = false → t.highest = s.highest)) ∧
  (∀ i s t, exec i s = .next t → (∀ v, i ≠ .loadBoard v) → s.highest.toNat ≤ t.highest.toNat) ∧
  (∀ v : Board, (∀ i < 16, (nib v i).toNat ≤ (maxnib v).toNat) ∧ ∃ i < 16, nib v i = maxnib v)

/-- R20: drawn from 0 to 11, SEL gives every candidate of a list of 1 to 4 the same number of selectors;
12 to 15 are reduced the same way. -/
def Obligations.SelectorsZeroToElevenAreUniform : Prop :=
  (∀ n ∈ [1, 2, 3, 4], ∀ k < n,
    ((List.range 12).filter (fun r => r % n == k)).length = 12 / n) ∧
  ∀ d (t : Code) (r : Sel) b, t ≠ 0 → emptyEdges d b ≠ [] →
    ∃ k, (emptyEdges d b)[r.toNat % (emptyEdges d b).length]? = some k ∧
      (insertTile d t r b).pos = edgeCell d k

/-! ## Commands: SCORE -/

/-- R205: SCORE, its encoding, its effect (legal while READY = 0), FAULTED, corner cases and example. -/
def Obligations.ScoreReturnsTheSum : Prop :=
  (∀ w x, decode w x = .ok .score ↔ w = 0x00000004) ∧
  (∀ s, s.status.fault = false → exec .score s = .next { s with
    status := { s.status with lastErr := .ok },
    port := .respond .ok (BitVec.ofNat 64 (∑ i ∈ Finset.range 16,
      if 3 ≤ (nib s.board i).toNat then 3 ^ ((nib s.board i).toNat - 2) else 0)) }) ∧
  (∀ s, s.status.fault = true → exec .score s = .next { s with
    status := { s.status with lastErr := .faulted }, port := .respond .faulted 0 }) ∧
  RefusesStrayBits 0x4 0xFFFFFFFF ∧
  boardScore 0 = 0 ∧ (∀ b, (∀ i < 16, (nib b i).toNat ≤ 2) → boardScore b = 0) ∧
  boardScore 0xFFFFFFFFFFFFFFFF = 25509168 ∧ boardScore 0x0204000020040003 = 21

/-- R207: the score is at most 16 * 3^13, so it fits in 25 bits, and the response carries it in full with its
upper half 0. -/
def Obligations.ScoreNeverWraps : Prop :=
  ∀ s t x, exec .score s = .next t → t.port = .respond .ok x →
    boardScore s.board ≤ 16 * 3 ^ 13 ∧ boardScore s.board < 2 ^ 25 ∧
    (x.extractLsb' 0 32).toNat = boardScore s.board ∧ x.extractLsb' 32 32 = 0

/-- R208: SCORE depends on BOARD alone and is the same for any permutation of the cells. -/
def Obligations.ScoreIgnoresTheOrderOfCells : Prop :=
  (∀ (b b' : Board) (σ : Equiv.Perm (Fin 16)),
    (∀ i : Fin 16, nib b' i.val = nib b (σ i).val) → boardScore b' = boardScore b) ∧
  (∀ s s' t t', s.status.fault = false → s'.status.fault = false → s.board = s'.board →
    exec .score s = .next t → exec .score s' = .next t' → t.port = t'.port)

/-! ## Commands: ENCODE, DECODE -/

/-- R113: `code_of` on its domain of 16 values, and no code for any other value, 24576 and 49152 included. -/
def Obligations.CodeOfIsDefinedExactlyOnFaces : Prop :=
  (∀ v : Face, v.toNat ≤ 2 → codeOf v = some (v.setWidth 4)) ∧
  (∀ k ≤ 12, codeOf (BitVec.ofNat 16 (3 * 2 ^ k)) = some (BitVec.ofNat 4 (k + 3))) ∧
  (∀ v : Face, 2 < v.toNat → (∀ k ≤ 12, v.toNat ≠ 3 * 2 ^ k) → codeOf v = none) ∧
  codeOf 24576 = none ∧ codeOf 49152 = none

/-- R114, R112: the two functions of the codec are mutual inverses, and `face_of` is strictly increasing. -/
def Obligations.CodecIsInvertibleAndIncreasing : Prop :=
  (∀ v c, codeOf v = some c → faceOf c = v) ∧ (∀ n, codeOf (faceOf n) = some n) ∧
  ∀ n m : Code, n.toNat < m.toNat → (faceOf n).toNat < (faceOf m).toNat

/-- R115, R116: ENCODE, its encoding, its code on a valid face, DOMAIN (not sticky, nothing else changed) on
any other, FAULTED first, and the example and corner cases. -/
def Obligations.EncodeAnswersCodeOrDomain : Prop :=
  (∀ w x f, decode w x = .ok (.encode f) ↔ w &&& 0x0000FFFF = 0x00000005 ∧ f = w.extractLsb' 16 16) ∧
  (∀ s f c, s.status.fault = false → codeOf f = some c → exec (.encode f) s = .next { s with
    status := { s.status with lastErr := .ok }, port := .respond .ok (c.setWidth 64) }) ∧
  (∀ s f, s.status.fault = false → codeOf f = none → exec (.encode f) s = .next { s with
    status := { s.status with lastErr := .domain }, port := .respond .domain 0 }) ∧
  (∀ s f, s.status.fault = true → exec (.encode f) s = .next { s with
    status := { s.status with lastErr := .faulted }, port := .respond .faulted 0 }) ∧
  RefusesStrayBits 0x5 0x0000FFFF ∧ decode 0x00060005 0 = .ok (.encode 6) ∧ ErrCode.domain.code = 3 ∧
  codeOf 0 = some 0 ∧ codeOf 3 = some 3 ∧ codeOf 6 = some 4 ∧ codeOf 12288 = some 15 ∧
  codeOf 24576 = none ∧ codeOf 49152 = none ∧
  codeOf 4 = none ∧ codeOf 5 = none ∧ codeOf 9 = none ∧ codeOf 65535 = none

/-- R117, R111: DECODE, its encoding, its face for every code, FAULTED, corner cases and example, and the
whole table of faces. -/
def Obligations.DecodeAnswersTheFace : Prop :=
  (∀ w x c, decode w x = .ok (.decode c) ↔ w &&& 0xFFFFF0FF = 0x00000006 ∧ c = w.extractLsb' 8 4) ∧
  (∀ s c, s.status.fault = false → exec (.decode c) s = .next { s with
    status := { s.status with lastErr := .ok },
    port := .respond .ok (BitVec.ofNat 64 (if c.toNat ≤ 2 then c.toNat else 3 * 2 ^ (c.toNat - 3))) }) ∧
  (∀ s c, s.status.fault = true → exec (.decode c) s = .next { s with
    status := { s.status with lastErr := .faulted }, port := .respond .faulted 0 }) ∧
  RefusesStrayBits 0x6 0xFFFFF0FF ∧
  faceOf 0 = 0 ∧ faceOf 15 = 0x3000 ∧ decode 0x00000F06 0 = .ok (.decode 15) ∧
  (List.range 16).map (fun n => (faceOf (BitVec.ofNat 4 n)).toNat) =
    [0, 1, 2, 3, 6, 12, 24, 48, 96, 192, 384, 768, 1536, 3072, 6144, 12288]

/-! ## Reserved opcodes, errors, and which command writes what -/

/-- R90, R222: every reserved opcode answers ILLEGAL_COMMAND whatever its other bits, and nothing else
changes, in every state. -/
def Obligations.ReservedOpcodesAnswerIllegalCommand : Prop :=
  ∀ (rest : BitVec 28) (s : State), ∀ i ∈ [Instr.reserved9 rest, .reservedA rest, .reservedB rest,
      .reservedC rest, .reservedD rest, .reservedE rest, .reservedF rest],
    exec i s = .next { s with status := { s.status with lastErr := .illegalCommand },
                              port := .respond .illegalCommand 0 }

/-- R222: a word with a reserved OP, or with an RSV bit or a bit of an unused field set, raises ILLEGAL_COMMAND
before any other check, with no effect but LAST_ERR. -/
def Obligations.IllegalWordsRaiseIllegalCommandFirst : Prop :=
  ∀ (w : CmdWord) (x : Data) (s : State),
    (9 ≤ (w.extractLsb' 0 4).toNat ∨
      w &&& maskOf (w.extractLsb' 0 4) &&& ~~~(0xF : CmdWord) ≠ 0) →
    runCommand w x s = .next { s with status := { s.status with lastErr := .illegalCommand },
                                      port := .respond .illegalCommand 0 }

/-- R237, R92: every command answers, in every state; and none with a reserved error code (R220). -/
def Obligations.EveryCommandAnswers : Prop :=
  ∀ i s, ∃ t e x, exec i s = .next t ∧ t.port = .respond e x ∧ ∀ k, e ≠ .reserved k

/-- R223: a command that ends with an error writes LAST_ERR, FAULT for LUT_MISS alone, and the response with
data 0; everything else is as it was. -/
def Obligations.ErrorsArePrecise : Prop :=
  ∀ w x s t e y, runCommand w x s = .next t → t.port = .respond e y → e ≠ .ok →
    y = 0 ∧ t = { s with
      status := { s.status with lastErr := e, fault := s.status.fault || decide (e = .lutMiss) },
      port := .respond e 0 }

/-- R221: LAST_ERR receives the error code of every command except a legal NOP and a legal READ_STATUS, which
leave it. -/
def Obligations.LastErrFollowsTheResponse : Prop :=
  (∀ w x s t, runCommand w x s = .next t → w ≠ 0x00000000 → w ≠ 0x00000007 →
    ∃ y, t.port = .respond t.status.lastErr y) ∧
  (∀ w x s t, runCommand w x s = .next t → w = 0x00000000 ∨ w = 0x00000007 →
    t.status.lastErr = s.status.lastErr)

/-- R224, R190, R170: a SWIPE or LUT_READ whose step finds READY = 0, or that was accepted while READY = 0, is
refused with NOT_READY; no entry is read and nothing else changes. (Either READY = 0 is `commandReady` = false; that
the acceptance counts where the step's READY is 1 is R224's word and DESIGN CHOICE log 15; O11 has it along a
run.) -/
def Obligations.NotReadyRefusesSwipeAndLutRead : Prop :=
  (∀ s d t r, s.status.fault = false → commandReady s = false → exec (.swipe d t r) s = .next { s with
    status := { s.status with lastErr := .notReady }, port := .respond .notReady 0 }) ∧
  (∀ s d n, commandReady s = false → exec (.lutRead d n) s = .next { s with
    status := { s.status with lastErr := .notReady }, port := .respond .notReady 0 }) ∧
  (∀ s, s.status.ready = false → commandReady s = false) ∧
  (∀ s w x k, s.port = .busy w x k false → commandReady s = false)

/-- R227: the table of which commands run in which state (`runs`: the answer is neither FAULTED nor
NOT_READY), and FAULT = 1 with READY = 0 never occurs. The table's READY is taken as `commandReady`. So clause 2
also refuses a command that was accepted with READY = 0 and whose step has READY = 1, which is no row of R227: that
case is the model's DESIGN CHOICE log 15. -/
def Obligations.CommandsAllowedByReadyAndFault : Prop :=
  (∀ s i, s.status.fault = true →
    (∃ v, i = Instr.loadBoard v) ∨ (∃ d t r, i = .swipe d t r) ∨ i = .score ∨ (∃ f, i = .encode f) ∨
      (∃ c, i = .decode c) →
    ∃ t, exec i s = .next t ∧ t.port = .respond .faulted 0) ∧
  (∀ s i, s.status.fault = false → commandReady s = false →
    (∃ d t r, i = Instr.swipe d t r) ∨ (∃ d n, i = .lutRead d n) →
    ∃ t, exec i s = .next t ∧ t.port = .respond .notReady 0) ∧
  (∀ s i, WellFormed i →
    (i = .nop ∨ i = .readBoard ∨ i = .readStatus ∨
      (s.status.fault = false ∧ ((∃ v, i = .loadBoard v) ∨ i = .score ∨ (∃ f, i = .encode f) ∨
        ∃ c, i = .decode c)) ∨
      (commandReady s = true ∧ ∃ d n, i = .lutRead d n) ∨
      (commandReady s = true ∧ s.status.fault = false ∧ ∃ d t r, i = .swipe d t r)) →
    ∃ t e x, exec i s = .next t ∧ t.port = .respond e x ∧ e ≠ .faulted ∧ e ≠ .notReady) ∧
  (∀ s t, (s.status.fault = true → s.status.ready = true) → step s = .next t →
    (t.status.fault = true → t.status.ready = true))

/-- R69: the queries change nothing but LAST_ERR and are idempotent: the same command again, held by the port as
before or issued anew, gives the same state and response (a LUT_READ issued anew: unless READY rose since the
first was accepted, which is no repetition); READ_STATUS and NOP change nothing. -/
def Obligations.QueriesHaveNoSideEffects : Prop :=
  (∀ s t i, i = Instr.readBoard ∨ i = .score ∨ (∃ f, i = .encode f) ∨ (∃ c, i = .decode c) ∨
      (∃ d n, i = .lutRead d n) →
    exec i s = .next t →
    t = { s with status := { s.status with lastErr := t.status.lastErr }, port := t.port } ∧
    exec i { t with port := s.port } = .next t ∧
    ((∀ d n, i ≠ .lutRead d n) ∨ commandReady s = s.status.ready →
      exec i { t with port := .idle } = .next t)) ∧
  (∀ s t i, i = Instr.readStatus ∨ i = .nop → exec i s = .next t → t = { s with port := t.port })

/-- R37: which commands write which STATUS fields. READY by no command; FAULT only by a LUT_MISS SWIPE; the
move report by an OK SWIPE or LOAD_BOARD alone, an error leaving it; LAST_ERR with the answer's error code by
every command but NOP and READ_STATUS, which leave it. -/
def Obligations.StatusFieldsHaveTheirWriters : Prop :=
  ∀ i s t, exec i s = .next t →
    t.status.ready = s.status.ready ∧
    (t.status.fault ≠ s.status.fault → t.status.fault = true ∧ t.status.lastErr = .lutMiss ∧
      ∃ d tl r, i = .swipe d tl r) ∧
    (t.status.lastErr ≠ .ok ∨ ((∀ v, i ≠ .loadBoard v) ∧ ∀ d tl r, i ≠ .swipe d tl r) →
      t.status = { s.status with lastErr := t.status.lastErr, fault := t.status.fault }) ∧
    (∀ v, i = .loadBoard v → t.status.lastErr = .ok →
      t.status = { s.status with changed := false, inserted := false, defaulted := false,
                                 lastDir := .left, insPos := 0, edgeMask := 0, lastErr := .ok }) ∧
    (∀ d tl r, i = .swipe d tl r → t.status.lastErr = .ok →
      t.status.lastDir = d ∧ (t.status.changed = decide (candidate d s ≠ s.board))) ∧
    (i = .nop ∨ i = .readStatus → t.status.lastErr = s.status.lastErr) ∧
    (i ≠ .nop ∧ i ≠ .readStatus → ∃ x, t.port = .respond t.status.lastErr x)

/-- R32, R35, R64: the frame of every command: no entry of the LUT space, nothing of the builder, the pending
inputs and the reset count is ever written; BOARD and HIGHEST only by an OK LOAD_BOARD and by an OK SWIPE
that changes the board. -/
def Obligations.BoardHighestAndTablesHaveTheirWriters : Prop :=
  ∀ i s t, exec i s = .next t →
    SameTables s t ∧ t.lut = s.lut ∧ t.builder = s.builder ∧ t.inputs = s.inputs ∧ t.epoch = s.epoch ∧
    (t.board ≠ s.board ∨ t.highest ≠ s.highest →
      t.status.lastErr = .ok ∧ ((∃ v, i = .loadBoard v ∧ t.board = v) ∨
        (∃ d tl r, i = .swipe d tl r ∧ t.status.changed = true)))

/-- R160, R70, I13: with built tables a command's effect depends on BOARD, HIGHEST and STATUS (with READY as the
command sees it, log 15) alone: not on the build's order, the table's history or the number of resets. -/
def Obligations.CommandsSeeOnlyTheVisibleState : Prop :=
  ∀ i s s' t t', TablesBuilt s → TablesBuilt s' → s.board = s'.board → s.highest = s'.highest →
    s.status = s'.status → commandReady s = commandReady s' → exec i s = .next t → exec i s' = .next t' →
    t.board = t'.board ∧ t.highest = t'.highest ∧ t.status = t'.status ∧ t.port = t'.port

/-! ## The line datapath -/

/-- R131, R132: gather and scatter are inverse, for both strides. -/
def Obligations.RestrideUndoesUnrestride : Prop :=
  (∀ (x : Board) (k i : Nat), k = 1 ∨ k = 4 → i < 4 → nib (restride x k) i = nib x (k * i)) ∧
  ∀ (n : Line) (k : Nat), k = 1 ∨ k = 4 →
    restride (unrestride n k) k = n ∧
    unrestride n k = (List.range 4).foldl (fun b i => b ||| (nib n i).setWidth 64 <<< (4 * k * i)) 0

/-- R134, R135: a natural line is the cells along its axis; a placed line lies under its mask; the four
placed lines of a board are the board. -/
def Obligations.LinesPartitionTheBoard : Prop :=
  (∀ b j i, j < 4 → i < 4 → nib (line b .rows j) i = nib b (4 * j + i)) ∧
  (∀ b j i, j < 4 → i < 4 → nib (line b .cols j) i = nib b (4 * i + j)) ∧
  (∀ n a j, j < 4 → place n a j &&& ~~~(lineMask a j) = 0) ∧
  (∀ b a, place (line b a 0) a 0 ||| place (line b a 1) a 1 ||| place (line b a 2) a 2 |||
    place (line b a 3) a 3 = b)

/-- R136, R137: `rev` reverses the nibbles and is its own inverse; `canon` is the identity or `rev`, its own
inverse, and puts the trailing-edge cell in nibble 3. -/
def Obligations.CanonPutsTheTrailingCellLast : Prop :=
  (∀ l : Line, (∀ i < 4, nib (rev l) i = nib l (3 - i)) ∧ rev (rev l) = l) ∧
  (∀ n, canon n .left = n ∧ canon n .up = n ∧ canon n .right = rev n ∧ canon n .down = rev n) ∧
  (∀ n d, canon (canon n d) d = n) ∧
  (∀ b d j, j < 4 → nib (canon (line b (axisOf d) j) d) 3 = nib b (edgeCell d j))

/-- R138-R141, R118: two tiles merge when the source's rules on faces say so and the sum has a code, and the
merged tile's face is the sum. -/
def Obligations.MergeAddsFaces : Prop :=
  ∀ a b : Code, a ≠ 0 → b ≠ 0 →
    (mergeable a b = true ↔
      (faceOf a = 1 ∧ faceOf b = 2) ∨ (faceOf a = 2 ∧ faceOf b = 1) ∨
      (faceOf a = faceOf b ∧ 3 ≤ (faceOf a).toNat ∧ (faceOf a).toNat < 12288)) ∧
    (mergeable a b = true → faceOf (merged a b) = faceOf a + faceOf b)

/-- R142: `slide` acts at the first point, from the pushed end, where the line can move: everything behind
moves one cell, everything in front stays; with no such point the line is unchanged. -/
def Obligations.SlideActsAtTheFirstPoint : Prop :=
  ∀ l : Line,
    (∀ i, 1 ≤ i → i ≤ 3 → (∀ k, 1 ≤ k → k < i → nib l (k - 1) ≠ 0 ∧ ¬ CanMergeAt l k) →
      (nib l (i - 1) = 0 → ∀ p < 4, nib (slide l) p =
        if p < i - 1 then nib l p else if p < 3 then nib l (p + 1) else 0) ∧
      (CanMergeAt l i → ∀ p < 4, nib (slide l) p =
        if p < i - 1 then nib l p else if p = i - 1 then merged (nib l (i - 1)) (nib l i)
        else if p < 3 then nib l (p + 1) else 0)) ∧
    ((∀ i, 1 ≤ i → i ≤ 3 → nib l (i - 1) ≠ 0 ∧ ¬ CanMergeAt l i) → slide l = l)

/-- R144 laws 1, 2, 3, 5, 6: no tile moves more than one cell, the tile count falls by one exactly when a merge
occurs and else stays, a changed line frees its trailing cell, the fixed points are the lines that can
neither shift nor merge, and `slide` is not idempotent, its smallest witness being `<0,0,1,0>`. -/
def Obligations.SlideLawsHold : Prop :=
  (∀ l : Line, ∀ p < 4, nib (slide l) p = nib l p ∨ nib (slide l) p = nib l (p + 1) ∨
    (mergeable (nib l p) (nib l (p + 1)) = true ∧ nib (slide l) p = merged (nib l p) (nib l (p + 1)))) ∧
  (∀ l : Line, (tileCount (slide l) + 1 = tileCount l ↔ ∃ i, 1 ≤ i ∧ i ≤ 3 ∧ MergesAt l i) ∧
    (tileCount (slide l) + 1 = tileCount l ∨ tileCount (slide l) = tileCount l)) ∧
  (∀ l : Line, slide l ≠ l → nib (slide l) 3 = 0) ∧
  (∀ l : Line, slide l = l ↔ ¬ ∃ i, 1 ≤ i ∧ i ≤ 3 ∧ (CanShiftAt l i ∨ CanMergeAt l i)) ∧
  slide 0x0100 = 0x0010 ∧ slide (slide 0x0100) = 0x0001 ∧
  (∀ l : Line, l.toNat < 0x0100 → slide (slide l) = slide l)
end

