-- ==== Sys2Proof/Laws/State.lean ====
section
/-! SUPPORT. One lemma per field per update of State, so that no proof unfolds a record update. -/

namespace Sys2Proof.Machine

/-! ### `respond`: only the port -/

@[simp] theorem respond_board (e : ErrCode) (x : Data) (s : State) :
    (respond e x s).board = s.board := rfl

@[simp] theorem respond_highest (e : ErrCode) (x : Data) (s : State) :
    (respond e x s).highest = s.highest := rfl

@[simp] theorem respond_status (e : ErrCode) (x : Data) (s : State) :
    (respond e x s).status = s.status := rfl

@[simp] theorem respond_lut (e : ErrCode) (x : Data) (s : State) :
    (respond e x s).lut = s.lut := rfl

@[simp] theorem respond_builder (e : ErrCode) (x : Data) (s : State) :
    (respond e x s).builder = s.builder := rfl

@[simp] theorem respond_port (e : ErrCode) (x : Data) (s : State) :
    (respond e x s).port = .respond e x := rfl

@[simp] theorem respond_inputs (e : ErrCode) (x : Data) (s : State) :
    (respond e x s).inputs = s.inputs := rfl

@[simp] theorem respond_epoch (e : ErrCode) (x : Data) (s : State) :
    (respond e x s).epoch = s.epoch := rfl

/-! ### `setLastErr`: only LAST_ERR (R221) -/

@[simp] theorem setLastErr_board (e : ErrCode) (s : State) :
    (setLastErr e s).board = s.board := rfl

@[simp] theorem setLastErr_highest (e : ErrCode) (s : State) :
    (setLastErr e s).highest = s.highest := rfl

@[simp] theorem setLastErr_ready (e : ErrCode) (s : State) :
    (setLastErr e s).status.ready = s.status.ready := rfl

@[simp] theorem setLastErr_fault (e : ErrCode) (s : State) :
    (setLastErr e s).status.fault = s.status.fault := rfl

@[simp] theorem setLastErr_changed (e : ErrCode) (s : State) :
    (setLastErr e s).status.changed = s.status.changed := rfl

@[simp] theorem setLastErr_inserted (e : ErrCode) (s : State) :
    (setLastErr e s).status.inserted = s.status.inserted := rfl

@[simp] theorem setLastErr_defaulted (e : ErrCode) (s : State) :
    (setLastErr e s).status.defaulted = s.status.defaulted := rfl

@[simp] theorem setLastErr_lastDir (e : ErrCode) (s : State) :
    (setLastErr e s).status.lastDir = s.status.lastDir := rfl

@[simp] theorem setLastErr_lastErr (e : ErrCode) (s : State) :
    (setLastErr e s).status.lastErr = e := rfl

@[simp] theorem setLastErr_insPos (e : ErrCode) (s : State) :
    (setLastErr e s).status.insPos = s.status.insPos := rfl

@[simp] theorem setLastErr_edgeMask (e : ErrCode) (s : State) :
    (setLastErr e s).status.edgeMask = s.status.edgeMask := rfl

@[simp] theorem setLastErr_lut (e : ErrCode) (s : State) :
    (setLastErr e s).lut = s.lut := rfl

@[simp] theorem setLastErr_builder (e : ErrCode) (s : State) :
    (setLastErr e s).builder = s.builder := rfl

@[simp] theorem setLastErr_port (e : ErrCode) (s : State) :
    (setLastErr e s).port = s.port := rfl

@[simp] theorem setLastErr_inputs (e : ErrCode) (s : State) :
    (setLastErr e s).inputs = s.inputs := rfl

@[simp] theorem setLastErr_epoch (e : ErrCode) (s : State) :
    (setLastErr e s).epoch = s.epoch := rfl

/-! ### `complete`: LAST_ERR and the port (R92, R221) -/

@[simp] theorem complete_board (x : Data) (s : State) :
    (complete x s).board = s.board := rfl

@[simp] theorem complete_highest (x : Data) (s : State) :
    (complete x s).highest = s.highest := rfl

@[simp] theorem complete_ready (x : Data) (s : State) :
    (complete x s).status.ready = s.status.ready := rfl

@[simp] theorem complete_fault (x : Data) (s : State) :
    (complete x s).status.fault = s.status.fault := rfl

@[simp] theorem complete_changed (x : Data) (s : State) :
    (complete x s).status.changed = s.status.changed := rfl

@[simp] theorem complete_inserted (x : Data) (s : State) :
    (complete x s).status.inserted = s.status.inserted := rfl

@[simp] theorem complete_defaulted (x : Data) (s : State) :
    (complete x s).status.defaulted = s.status.defaulted := rfl

@[simp] theorem complete_lastDir (x : Data) (s : State) :
    (complete x s).status.lastDir = s.status.lastDir := rfl

@[simp] theorem complete_lastErr (x : Data) (s : State) :
    (complete x s).status.lastErr = .ok := rfl

@[simp] theorem complete_insPos (x : Data) (s : State) :
    (complete x s).status.insPos = s.status.insPos := rfl

@[simp] theorem complete_edgeMask (x : Data) (s : State) :
    (complete x s).status.edgeMask = s.status.edgeMask := rfl

@[simp] theorem complete_lut (x : Data) (s : State) :
    (complete x s).lut = s.lut := rfl

@[simp] theorem complete_builder (x : Data) (s : State) :
    (complete x s).builder = s.builder := rfl

@[simp] theorem complete_port (x : Data) (s : State) :
    (complete x s).port = .respond .ok x := rfl

@[simp] theorem complete_inputs (x : Data) (s : State) :
    (complete x s).inputs = s.inputs := rfl

@[simp] theorem complete_epoch (x : Data) (s : State) :
    (complete x s).epoch = s.epoch := rfl

/-! ### `raise`: LAST_ERR, FAULT for LUT_MISS, the port (R223) -/

@[simp] theorem raise_board (e : ErrCode) (s : State) :
    (raise e s).board = s.board := rfl

@[simp] theorem raise_highest (e : ErrCode) (s : State) :
    (raise e s).highest = s.highest := rfl

@[simp] theorem raise_ready (e : ErrCode) (s : State) :
    (raise e s).status.ready = s.status.ready := rfl

@[simp] theorem raise_fault (e : ErrCode) (s : State) :
    (raise e s).status.fault = faultAfter e s.status.fault := rfl

@[simp] theorem raise_changed (e : ErrCode) (s : State) :
    (raise e s).status.changed = s.status.changed := rfl

@[simp] theorem raise_inserted (e : ErrCode) (s : State) :
    (raise e s).status.inserted = s.status.inserted := rfl

@[simp] theorem raise_defaulted (e : ErrCode) (s : State) :
    (raise e s).status.defaulted = s.status.defaulted := rfl

@[simp] theorem raise_lastDir (e : ErrCode) (s : State) :
    (raise e s).status.lastDir = s.status.lastDir := rfl

@[simp] theorem raise_lastErr (e : ErrCode) (s : State) :
    (raise e s).status.lastErr = e := rfl

@[simp] theorem raise_insPos (e : ErrCode) (s : State) :
    (raise e s).status.insPos = s.status.insPos := rfl

@[simp] theorem raise_edgeMask (e : ErrCode) (s : State) :
    (raise e s).status.edgeMask = s.status.edgeMask := rfl

@[simp] theorem raise_lut (e : ErrCode) (s : State) :
    (raise e s).lut = s.lut := rfl

@[simp] theorem raise_builder (e : ErrCode) (s : State) :
    (raise e s).builder = s.builder := rfl

@[simp] theorem raise_port (e : ErrCode) (s : State) :
    (raise e s).port = .respond e 0 := rfl

@[simp] theorem raise_inputs (e : ErrCode) (s : State) :
    (raise e s).inputs = s.inputs := rfl

@[simp] theorem raise_epoch (e : ErrCode) (s : State) :
    (raise e s).epoch = s.epoch := rfl

/-! ### `loadBoard`: the board, HIGHEST and the move report (R183) -/

@[simp] theorem loadBoard_board (v : Board) (s : State) :
    (loadBoard v s).board = v := rfl

@[simp] theorem loadBoard_highest (v : Board) (s : State) :
    (loadBoard v s).highest = maxnib v := rfl

@[simp] theorem loadBoard_ready (v : Board) (s : State) :
    (loadBoard v s).status.ready = s.status.ready := rfl

@[simp] theorem loadBoard_fault (v : Board) (s : State) :
    (loadBoard v s).status.fault = s.status.fault := rfl

@[simp] theorem loadBoard_changed (v : Board) (s : State) :
    (loadBoard v s).status.changed = false := rfl

@[simp] theorem loadBoard_inserted (v : Board) (s : State) :
    (loadBoard v s).status.inserted = false := rfl

@[simp] theorem loadBoard_defaulted (v : Board) (s : State) :
    (loadBoard v s).status.defaulted = false := rfl

@[simp] theorem loadBoard_lastDir (v : Board) (s : State) :
    (loadBoard v s).status.lastDir = .left := rfl

@[simp] theorem loadBoard_lastErr (v : Board) (s : State) :
    (loadBoard v s).status.lastErr = s.status.lastErr := rfl

@[simp] theorem loadBoard_insPos (v : Board) (s : State) :
    (loadBoard v s).status.insPos = 0 := rfl

@[simp] theorem loadBoard_edgeMask (v : Board) (s : State) :
    (loadBoard v s).status.edgeMask = 0 := rfl

@[simp] theorem loadBoard_lut (v : Board) (s : State) :
    (loadBoard v s).lut = s.lut := rfl

@[simp] theorem loadBoard_builder (v : Board) (s : State) :
    (loadBoard v s).builder = s.builder := rfl

@[simp] theorem loadBoard_port (v : Board) (s : State) :
    (loadBoard v s).port = s.port := rfl

@[simp] theorem loadBoard_inputs (v : Board) (s : State) :
    (loadBoard v s).inputs = s.inputs := rfl

@[simp] theorem loadBoard_epoch (v : Board) (s : State) :
    (loadBoard v s).epoch = s.epoch := rfl

/-! ### `swipeNoop`: the move report, LAST_ERR and the port (R193) -/

@[simp] theorem swipeNoop_board (d : Dir) (s : State) :
    (swipeNoop d s).board = s.board := rfl

@[simp] theorem swipeNoop_highest (d : Dir) (s : State) :
    (swipeNoop d s).highest = s.highest := rfl

@[simp] theorem swipeNoop_ready (d : Dir) (s : State) :
    (swipeNoop d s).status.ready = s.status.ready := rfl

@[simp] theorem swipeNoop_fault (d : Dir) (s : State) :
    (swipeNoop d s).status.fault = s.status.fault := rfl

@[simp] theorem swipeNoop_changed (d : Dir) (s : State) :
    (swipeNoop d s).status.changed = false := rfl

@[simp] theorem swipeNoop_inserted (d : Dir) (s : State) :
    (swipeNoop d s).status.inserted = false := rfl

@[simp] theorem swipeNoop_defaulted (d : Dir) (s : State) :
    (swipeNoop d s).status.defaulted = false := rfl

@[simp] theorem swipeNoop_lastDir (d : Dir) (s : State) :
    (swipeNoop d s).status.lastDir = d := rfl

@[simp] theorem swipeNoop_lastErr (d : Dir) (s : State) :
    (swipeNoop d s).status.lastErr = .ok := rfl

@[simp] theorem swipeNoop_insPos (d : Dir) (s : State) :
    (swipeNoop d s).status.insPos = 0 := rfl

@[simp] theorem swipeNoop_edgeMask (d : Dir) (s : State) :
    (swipeNoop d s).status.edgeMask = 0 := rfl

@[simp] theorem swipeNoop_lut (d : Dir) (s : State) :
    (swipeNoop d s).lut = s.lut := rfl

@[simp] theorem swipeNoop_builder (d : Dir) (s : State) :
    (swipeNoop d s).builder = s.builder := rfl

@[simp] theorem swipeNoop_port (d : Dir) (s : State) :
    (swipeNoop d s).port = .respond .ok s.board := rfl

@[simp] theorem swipeNoop_inputs (d : Dir) (s : State) :
    (swipeNoop d s).inputs = s.inputs := rfl

@[simp] theorem swipeNoop_epoch (d : Dir) (s : State) :
    (swipeNoop d s).epoch = s.epoch := rfl

/-! ### `swipeCommit`: BOARD, HIGHEST, the move report, LAST_ERR and the port (R194-R198) -/

@[simp] theorem swipeCommit_board (d : Dir) (t : Code) (r : Sel) (c : Board) (s : State) :
    (swipeCommit d t r c s).board = (insertTile d t r c).board := rfl

@[simp] theorem swipeCommit_highest (d : Dir) (t : Code) (r : Sel) (c : Board) (s : State) :
    (swipeCommit d t r c s).highest = maxCode s.highest (maxnib (insertTile d t r c).board) := rfl

@[simp] theorem swipeCommit_ready (d : Dir) (t : Code) (r : Sel) (c : Board) (s : State) :
    (swipeCommit d t r c s).status.ready = s.status.ready := rfl

@[simp] theorem swipeCommit_fault (d : Dir) (t : Code) (r : Sel) (c : Board) (s : State) :
    (swipeCommit d t r c s).status.fault = s.status.fault := rfl

@[simp] theorem swipeCommit_changed (d : Dir) (t : Code) (r : Sel) (c : Board) (s : State) :
    (swipeCommit d t r c s).status.changed = true := rfl

@[simp] theorem swipeCommit_inserted (d : Dir) (t : Code) (r : Sel) (c : Board) (s : State) :
    (swipeCommit d t r c s).status.inserted = (insertTile d t r c).inserted := rfl

@[simp] theorem swipeCommit_defaulted (d : Dir) (t : Code) (r : Sel) (c : Board) (s : State) :
    (swipeCommit d t r c s).status.defaulted = (insertTile d t r c).defaulted := rfl

@[simp] theorem swipeCommit_lastDir (d : Dir) (t : Code) (r : Sel) (c : Board) (s : State) :
    (swipeCommit d t r c s).status.lastDir = d := rfl

@[simp] theorem swipeCommit_lastErr (d : Dir) (t : Code) (r : Sel) (c : Board) (s : State) :
    (swipeCommit d t r c s).status.lastErr = .ok := rfl

@[simp] theorem swipeCommit_insPos (d : Dir) (t : Code) (r : Sel) (c : Board) (s : State) :
    (swipeCommit d t r c s).status.insPos = BitVec.ofNat 4 (insertTile d t r c).pos := rfl

@[simp] theorem swipeCommit_edgeMask (d : Dir) (t : Code) (r : Sel) (c : Board) (s : State) :
    (swipeCommit d t r c s).status.edgeMask = edgeMaskOf (emptyEdges d c) := rfl

@[simp] theorem swipeCommit_lut (d : Dir) (t : Code) (r : Sel) (c : Board) (s : State) :
    (swipeCommit d t r c s).lut = s.lut := rfl

@[simp] theorem swipeCommit_builder (d : Dir) (t : Code) (r : Sel) (c : Board) (s : State) :
    (swipeCommit d t r c s).builder = s.builder := rfl

@[simp] theorem swipeCommit_port (d : Dir) (t : Code) (r : Sel) (c : Board) (s : State) :
    (swipeCommit d t r c s).port = .respond .ok (insertTile d t r c).board := rfl

@[simp] theorem swipeCommit_inputs (d : Dir) (t : Code) (r : Sel) (c : Board) (s : State) :
    (swipeCommit d t r c s).inputs = s.inputs := rfl

@[simp] theorem swipeCommit_epoch (d : Dir) (t : Code) (r : Sel) (c : Board) (s : State) :
    (swipeCommit d t r c s).epoch = s.epoch := rfl

/-! ### `dropPins`: only the inputs -/

@[simp] theorem dropPins_board (s : State) :
    (dropPins s).board = s.board := rfl

@[simp] theorem dropPins_highest (s : State) :
    (dropPins s).highest = s.highest := rfl

@[simp] theorem dropPins_status (s : State) :
    (dropPins s).status = s.status := rfl

@[simp] theorem dropPins_lut (s : State) :
    (dropPins s).lut = s.lut := rfl

@[simp] theorem dropPins_builder (s : State) :
    (dropPins s).builder = s.builder := rfl

@[simp] theorem dropPins_port (s : State) :
    (dropPins s).port = s.port := rfl

@[simp] theorem dropPins_inputs (s : State) :
    (dropPins s).inputs = s.inputs.tail := rfl

@[simp] theorem dropPins_epoch (s : State) :
    (dropPins s).epoch = s.epoch := rfl

/-! ### `builderEdge`: the tables, its progress and READY (R161-R163) -/

@[simp] theorem builderEdge_board (s : State) :
    (builderEdge s).board = s.board := rfl

@[simp] theorem builderEdge_highest (s : State) :
    (builderEdge s).highest = s.highest := rfl

@[simp] theorem builderEdge_ready (s : State) :
    (builderEdge s).status.ready = (s.status.ready || buildEnds s.builder) := rfl

@[simp] theorem builderEdge_fault (s : State) :
    (builderEdge s).status.fault = s.status.fault := rfl

@[simp] theorem builderEdge_changed (s : State) :
    (builderEdge s).status.changed = s.status.changed := rfl

@[simp] theorem builderEdge_inserted (s : State) :
    (builderEdge s).status.inserted = s.status.inserted := rfl

@[simp] theorem builderEdge_defaulted (s : State) :
    (builderEdge s).status.defaulted = s.status.defaulted := rfl

@[simp] theorem builderEdge_lastDir (s : State) :
    (builderEdge s).status.lastDir = s.status.lastDir := rfl

@[simp] theorem builderEdge_lastErr (s : State) :
    (builderEdge s).status.lastErr = s.status.lastErr := rfl

@[simp] theorem builderEdge_insPos (s : State) :
    (builderEdge s).status.insPos = s.status.insPos := rfl

@[simp] theorem builderEdge_edgeMask (s : State) :
    (builderEdge s).status.edgeMask = s.status.edgeMask := rfl

@[simp] theorem builderEdge_lut (s : State) :
    (builderEdge s).lut = (if s.status.ready then s.lut
      else buildWrites s.epoch s.lut s.builder.written
        (buildUpTo s.epoch s.builder - s.builder.written)) := rfl

@[simp] theorem builderEdge_builder (s : State) :
    (builderEdge s).builder = (if s.status.ready then s.builder
      else { edges := s.builder.edges + 1, written := buildUpTo s.epoch s.builder }) := rfl

@[simp] theorem builderEdge_port (s : State) :
    (builderEdge s).port = s.port := rfl

@[simp] theorem builderEdge_inputs (s : State) :
    (builderEdge s).inputs = s.inputs := rfl

@[simp] theorem builderEdge_epoch (s : State) :
    (builderEdge s).epoch = s.epoch := rfl

/-! ### `presentCommand`: the port and the inputs -/

@[simp] theorem presentCommand_board (w : CmdWord) (x : Data) (s : State) :
    (presentCommand w x s).board = s.board := rfl

@[simp] theorem presentCommand_highest (w : CmdWord) (x : Data) (s : State) :
    (presentCommand w x s).highest = s.highest := rfl

@[simp] theorem presentCommand_status (w : CmdWord) (x : Data) (s : State) :
    (presentCommand w x s).status = s.status := rfl

@[simp] theorem presentCommand_lut (w : CmdWord) (x : Data) (s : State) :
    (presentCommand w x s).lut = s.lut := rfl

@[simp] theorem presentCommand_builder (w : CmdWord) (x : Data) (s : State) :
    (presentCommand w x s).builder = s.builder := rfl

@[simp] theorem presentCommand_port (w : CmdWord) (x : Data) (s : State) :
    (presentCommand w x s).port = .busy w x 0 s.status.ready := rfl

@[simp] theorem presentCommand_inputs (w : CmdWord) (x : Data) (s : State) :
    (presentCommand w x s).inputs = Pins.quiet :: s.inputs := rfl

@[simp] theorem presentCommand_epoch (w : CmdWord) (x : Data) (s : State) :
    (presentCommand w x s).epoch = s.epoch := rfl

/-! ### `resetEdge`: every field but the inputs (R45, R250) -/

@[simp] theorem resetEdge_board (s : State) :
    (resetEdge s).board = 0 := rfl

@[simp] theorem resetEdge_highest (s : State) :
    (resetEdge s).highest = 0 := rfl

@[simp] theorem resetEdge_status (s : State) :
    (resetEdge s).status = Status.reset := rfl

@[simp] theorem resetEdge_lut (s : State) :
    (resetEdge s).lut = [] := rfl

@[simp] theorem resetEdge_builder (s : State) :
    (resetEdge s).builder = { edges := 0, written := 0 } := rfl

@[simp] theorem resetEdge_port (s : State) :
    (resetEdge s).port = .idle := rfl

@[simp] theorem resetEdge_inputs (s : State) :
    (resetEdge s).inputs = s.inputs := rfl

@[simp] theorem resetEdge_epoch (s : State) :
    (resetEdge s).epoch = s.epoch + 1 := rfl

/-- FAULT after an error, as one formula. -/
theorem faultAfter_eq (e : ErrCode) (f : Bool) : faultAfter e f = (f || decide (e = .lutMiss)) := by
  cases e <;> simp [faultAfter]

/-- FAULT is never cleared by an error (R226). -/
@[simp] theorem faultAfter_true (e : ErrCode) : faultAfter e true = true := by cases e <;> rfl

/-! ### `commandReady`: the READY a command goes by (R224) -/

theorem ready_of_commandReady {s : State} (h : commandReady s = true) : s.status.ready = true := by
  simp only [commandReady, Bool.and_eq_true] at h; exact h.2

/-- Not ready in the step: refused (R190, R170). -/
theorem commandReady_of_not_ready {s : State} (h : s.status.ready = false) : commandReady s = false := by
  simp [commandReady, h]

/-- No command held: READY is STATUS.READY. -/
theorem commandReady_of_idle {s : State} (h : s.port = .idle) : commandReady s = s.status.ready := by
  simp [commandReady, acceptedReady, h]

/-- A held command: READY at its acceptance, and now (R224). -/
theorem commandReady_of_busy {s : State} {w : CmdWord} {x : Data} {k : Nat} {r : Bool}
    (h : s.port = .busy w x k r) : commandReady s = (r && s.status.ready) := by
  simp [commandReady, acceptedReady, h]

@[simp] theorem commandReady_dropPins (s : State) : commandReady (dropPins s) = commandReady s := rfl

@[simp] theorem commandReady_presentCommand (w : CmdWord) (x : Data) (s : State) :
    commandReady (presentCommand w x s) = s.status.ready := by
  simp [commandReady, acceptedReady]

end Sys2Proof.Machine
end

