-- ==== Sys2Proof/Laws/Memory.lean ====
section
/-! SUPPORT. The LUT space as memory: a read after a write, the canonical form, and that a canonical memory is
determined by what it lists. -/

namespace Sys2Proof.Machine

namespace Memory

@[simp] theorem lookup_nil (a : Nat) : lookup [] a = none := rfl

/-- A read after a write, at the same address and at every other one. -/
theorem lookup_write (m : Memory) (a b : Nat) (v : Line) :
    (m.write a v).lookup b = if b = a then some v else m.lookup b := by
  induction m with
  | nil => simp [write, lookup]
  | cons c m ih =>
    obtain ⟨k, x⟩ := c
    unfold write
    split
    · simp [lookup]
    · split
      · subst_vars; by_cases h : b = k <;> simp [lookup, h]
      · simp only [lookup, ih]; grind

/-- What is listed from a higher address on is listed from a lower one on. -/
theorem sortedFrom_mono {m : Memory} {lo hi : Nat} (h : lo ≤ hi) (hm : m.sortedFrom hi = true) :
    m.sortedFrom lo = true := by
  cases m with
  | nil => rfl
  | cons c m =>
    obtain ⟨k, x⟩ := c
    simp only [sortedFrom, Bool.and_eq_true, decide_eq_true_eq] at hm ⊢
    exact ⟨⟨by omega, hm.1.2⟩, hm.2⟩

/-- Nothing is listed below the bound of the canonical form. -/
theorem lookup_below {m : Memory} {lo a : Nat} (hm : m.sortedFrom lo = true) (h : a < lo) :
    m.lookup a = none := by
  induction m generalizing lo with
  | nil => rfl
  | cons c m ih =>
    obtain ⟨k, x⟩ := c
    simp [sortedFrom] at hm
    simp [lookup, show ¬ a = k by omega, ih hm.2 (by omega)]

theorem sortedFrom_write {m : Memory} {lo a : Nat} (v : Line) (hm : m.sortedFrom lo = true)
    (hlo : lo ≤ a) (ha : a < Config.lutSpace) : (m.write a v).sortedFrom lo = true := by
  induction m generalizing lo with
  | nil => simpa [write, sortedFrom] using ⟨hlo, ha⟩
  | cons c m ih =>
    obtain ⟨k, x⟩ := c
    simp only [sortedFrom, Bool.and_eq_true, decide_eq_true_eq] at hm
    unfold write
    split
    · simp only [sortedFrom, Bool.and_eq_true, decide_eq_true_eq]
      exact ⟨⟨hlo, ha⟩, ⟨by omega, hm.1.2⟩, hm.2⟩
    · split
      · subst_vars
        simp only [sortedFrom, Bool.and_eq_true, decide_eq_true_eq]
        exact ⟨⟨hlo, ha⟩, hm.2⟩
      · simp only [sortedFrom, Bool.and_eq_true, decide_eq_true_eq]
        exact ⟨hm.1, ih hm.2 (by omega)⟩

/-- A write inside the LUT space keeps the canonical form. -/
theorem wf_write {m : Memory} {a : Nat} (v : Line) (hm : m.wf = true) (ha : a < Config.lutSpace) :
    (m.write a v).wf = true :=
  sortedFrom_write v hm (Nat.zero_le a) ha

/-- Two memories in canonical form that list the same are equal. -/
theorem eq_of_lookup {m m' : Memory} {lo lo' : Nat} (hm : m.sortedFrom lo = true)
    (hm' : m'.sortedFrom lo' = true) (h : ∀ a, m.lookup a = m'.lookup a) : m = m' := by
  induction m generalizing m' lo lo' with
  | nil =>
    cases m' with
    | nil => rfl
    | cons c m' => have := h c.1; simp [lookup] at this
  | cons c m ih =>
    obtain ⟨k, x⟩ := c
    cases m' with
    | nil => have := h k; simp [lookup] at this
    | cons c' m' =>
      obtain ⟨k', x'⟩ := c'
      simp only [sortedFrom, Bool.and_eq_true, decide_eq_true_eq] at hm hm'
      have hk : k = k' := by
        rcases Nat.lt_trichotomy k k' with hlt | heq | hgt
        · have := h k
          rw [show lookup ((k', x') :: m') k = none from by
            simp [lookup, show ¬ k = k' by omega, lookup_below hm'.2 (show k < k' + 1 by omega)]] at this
          simp [lookup] at this
        · exact heq
        · have := h k'
          rw [show lookup ((k, x) :: m) k' = none from by
            simp [lookup, show ¬ k' = k by omega, lookup_below hm.2 (show k' < k + 1 by omega)]] at this
          simp [lookup] at this
      subst hk
      have hx : x = x' := by have := h k; simpa [lookup] using this
      subst hx
      congr 1
      refine ih hm.2 hm'.2 fun a => ?_
      by_cases ha : a = k
      · subst ha; rw [lookup_below hm.2 (by omega), lookup_below hm'.2 (by omega)]
      · have := h a; simpa [lookup, ha] using this

/-- Canonical memories are determined by what they list. -/
theorem wf_ext {m m' : Memory} (hm : m.wf = true) (hm' : m'.wf = true)
    (h : ∀ a, m.lookup a = m'.lookup a) : m = m' :=
  eq_of_lookup hm hm' h

end Memory

/-! ### Addresses of the LUT space (spec/20_memory.md R63, R65) -/

@[simp] theorem ofBits_toBits (d : Dir) : Dir.ofBits d.toBits = d := by cases d <;> rfl

theorem toBits_ofBits (b : BitVec 2) : (Dir.ofBits b).toBits = b := by revert b; decide

theorem lutAddr_lt (d : Dir) (n : Line) : lutAddr d n < Config.lutSpace := by
  have := n.isLt; have := d.toBits.isLt; simp only [lutAddr, Config.lutEntries, Config.lutSpace]; omega

@[simp] theorem addrLine_lutAddr (d : Dir) (n : Line) : addrLine (lutAddr d n) = n := by
  have := n.isLt
  apply BitVec.eq_of_toNat_eq
  simp only [addrLine, lutAddr, BitVec.toNat_ofNat, Config.lutEntries]
  omega

@[simp] theorem addrDir_lutAddr (d : Dir) (n : Line) : addrDir (lutAddr d n) = d := by
  have hn := n.isLt
  have : (lutAddr d n) / Config.lutEntries = d.toBits.toNat := by
    simp only [lutAddr, Config.lutEntries]; omega
  rw [addrDir, this, BitVec.ofNat_toNat, BitVec.setWidth_eq, ofBits_toBits]

/-- Every address of the LUT space is the address of one entry. -/
theorem lutAddr_addr {a : Nat} (h : a < Config.lutSpace) : lutAddr (addrDir a) (addrLine a) = a := by
  simp only [lutAddr, addrDir, addrLine, toBits_ofBits, BitVec.toNat_ofNat, Config.lutEntries,
    Config.lutSpace] at h ⊢
  omega

theorem lutAddr_inj {d d' : Dir} {n n' : Line} (h : lutAddr d n = lutAddr d' n') : d = d' ∧ n = n' := by
  refine ⟨?_, ?_⟩
  · simpa using congrArg addrDir h
  · simpa using congrArg addrLine h

/-- What LutRead answers, by whether the entry is listed (R11, R41). -/
theorem lutRead_of_lookup_some {s : State} {d : Dir} {n x : Line}
    (h : s.lut.lookup (lutAddr d n) = some x) : lutRead s d n = (true, x) := by
  simp [lutRead, h]

theorem lutRead_of_lookup_none {s : State} {d : Dir} {n : Line}
    (h : s.lut.lookup (lutAddr d n) = none) :
    lutRead s d n = (false, Config.lutUnset s.epoch (lutAddr d n)) := by
  simp [lutRead, h]

/-- An entry read as valid is listed with its data. -/
theorem lookup_of_lutRead {s : State} {d : Dir} {n x : Line} (h : lutRead s d n = (true, x)) :
    s.lut.lookup (lutAddr d n) = some x := by
  unfold lutRead at h; split at h <;> simp_all

/-- LutRead depends on the tables and the reset count alone. -/
theorem lutRead_congr {s t : State} (h : t.lut = s.lut) (he : t.epoch = s.epoch) (d : Dir) (n : Line) :
    lutRead t d n = lutRead s d n := by
  simp [lutRead, h, he]

end Sys2Proof.Machine
end

