-- ==== Sys2Proof/Laws/Builder.lean ====
section
/-! SUPPORT. The builder: its writes go to each entry once, whatever the free order, so that the tables after
them are known. -/

namespace Sys2Proof.Machine

/-! ### The order of the writes -/

theorem buildAddr_lt (e : Nat) {k : Nat} (h : k < Config.lutSpace) : buildAddr e k < Config.lutSpace := by
  rw [buildAddr, dif_pos h]; exact Fin.isLt _

/-- No entry is written twice (R161). -/
theorem buildAddr_inj {e j k : Nat} (hj : j < Config.lutSpace) (hk : k < Config.lutSpace)
    (h : buildAddr e j = buildAddr e k) : j = k := by
  rw [buildAddr, dif_pos hj, buildAddr, dif_pos hk] at h
  simpa using (Config.buildOrder e).injective (Fin.ext h)

/-- Every entry is written (R161). -/
theorem exists_buildAddr (e : Nat) {a : Nat} (h : a < Config.lutSpace) :
    ∃ k < Config.lutSpace, buildAddr e k = a := by
  obtain ⟨k, hk⟩ := (Config.buildOrder e).surjective ⟨a, h⟩
  exact ⟨k.val, k.isLt, by rw [buildAddr, dif_pos k.isLt]; simpa using congrArg Fin.val hk⟩

/-! ### Runs of writes -/

@[simp] theorem buildWrites_zero (e : Nat) (m : Memory) (k : Nat) : buildWrites e m k 0 = m := rfl

theorem buildWrites_succ (e : Nat) (m : Memory) (k c : Nat) :
    buildWrites e m k (c + 1) = buildWrites e (buildWrite e m k) (k + 1) c := by
  simp [buildWrites, List.range'_succ]

/-- Two runs of writes, one after the other, are one. -/
theorem buildWrites_append (e : Nat) (m : Memory) (k c c' : Nat) :
    buildWrites e (buildWrites e m k c) (k + c) c' = buildWrites e m k (c + c') := by
  simp only [buildWrites, ← List.foldl_append, ← List.range'_append, Nat.one_mul]

/-- One builder write (R161). -/
theorem lookup_buildWrite (e : Nat) (m : Memory) {k : Nat} (hk : k < Config.lutSpace) (a : Nat) :
    (buildWrite e m k).lookup a =
      if a = buildAddr e k then some (transform (addrDir a) (addrLine a)) else m.lookup a := by
  simp only [buildWrite, lutWrite, Memory.lookup_write, lutAddr_addr (buildAddr_lt e hk)]
  split <;> simp_all

theorem wf_buildWrite (e : Nat) {m : Memory} (k : Nat) (hm : m.wf = true) :
    (buildWrite e m k).wf = true :=
  Memory.wf_write _ hm (lutAddr_lt _ _)

/-- The builder keeps the canonical form. -/
theorem wf_buildWrites (e : Nat) {m : Memory} (k c : Nat) (hm : m.wf = true) :
    (buildWrites e m k c).wf = true := by
  induction c generalizing m k with
  | zero => exact hm
  | succ c ih => rw [buildWrites_succ]; exact ih _ (wf_buildWrite e k hm)

/-- An entry that a run of writes does not reach keeps what it was. -/
theorem lookup_buildWrites_other (e : Nat) (m : Memory) {k c a : Nat} (h : k + c ≤ Config.lutSpace)
    (ha : ∀ i, k ≤ i → i < k + c → buildAddr e i ≠ a) :
    (buildWrites e m k c).lookup a = m.lookup a := by
  induction c generalizing m k with
  | zero => rfl
  | succ c ih =>
    rw [buildWrites_succ, ih _ (by omega) fun i h1 h2 => ha i (by omega) (by omega),
      lookup_buildWrite e m (by omega), if_neg fun h1 => ha k (by omega) (by omega) h1.symm]

/-- An entry that a run of writes reaches holds its value (R160). -/
theorem lookup_buildWrites (e : Nat) (m : Memory) {k c i : Nat} (h : k + c ≤ Config.lutSpace)
    (h1 : k ≤ i) (h2 : i < k + c) :
    (buildWrites e m k c).lookup (buildAddr e i) =
      some (transform (addrDir (buildAddr e i)) (addrLine (buildAddr e i))) := by
  induction c generalizing m k with
  | zero => omega
  | succ c ih =>
    rw [buildWrites_succ]
    rcases Nat.eq_or_lt_of_le h1 with rfl | h3
    · rw [lookup_buildWrites_other e _ (by omega), lookup_buildWrite e m (by omega), if_pos rfl]
      intro j h4 h5 h6
      have := buildAddr_inj (by omega) (by omega) h6
      omega
    · exact ih _ (by omega) h3 (by omega)

/-- After all the writes every entry holds its value (R160). -/
theorem lookup_builtTables (e : Nat) {a : Nat} (h : a < Config.lutSpace) :
    (buildWrites e [] 0 Config.lutSpace).lookup a = some (transform (addrDir a) (addrLine a)) := by
  obtain ⟨k, hk, rfl⟩ := exists_buildAddr e h
  exact lookup_buildWrites e [] (by omega) (by omega) (by omega)

/-- Tables that are all the builder's writes are the tables of R160. -/
theorem tablesBuilt_of_lut {s : State} (h : s.lut = buildWrites s.epoch [] 0 Config.lutSpace) :
    TablesBuilt s := by
  intro d n
  apply lutRead_of_lookup_some
  rw [h, lookup_builtTables s.epoch (lutAddr_lt d n), addrDir_lutAddr, addrLine_lutAddr]

/-- READY = 1 in a state with the invariant: the tables are those of R160 (R162). -/
theorem tablesBuilt_of_inv {s : State} (h : MachineInv s) (hr : s.status.ready = true) : TablesBuilt s :=
  tablesBuilt_of_lut (by rw [h.built, h.complete hr])

/-- With built tables every lookup of a SWIPE is valid. -/
theorem lookupsValid_of_built {s : State} (h : TablesBuilt s) (d : Dir) : lookupsValid d s = true := by
  simp [lookupsValid, swipeLookup, h d]

/-- With built tables the candidate board is made of the direction transforms (R191). -/
theorem candidate_of_built {s : State} (h : TablesBuilt s) (d : Dir) :
    candidate d s = placeAll (axisOf d) (fun j => transform d (line s.board (axisOf d) j)) := by
  simp [candidate, swipeLookup, h d]

/-! ### One edge of the builder -/

theorem buildUpTo_le (e : Nat) (b : Builder) : buildUpTo e b ≤ Config.lutSpace := by
  unfold buildUpTo; split <;> simp only [Config.lutSpace] <;> omega

theorem buildUpTo_of_ends (e : Nat) {b : Builder} (h : buildEnds b = true) :
    buildUpTo e b = Config.lutSpace := by
  simp [buildUpTo, h]

theorem buildUpTo_of_not_ends (e : Nat) {b : Builder} (h : buildEnds b = false)
    (hb : b.written < Config.lutSpace) :
    b.written ≤ buildUpTo e b ∧ buildUpTo e b < Config.lutSpace := by
  simp only [buildUpTo, h, Bool.false_eq_true, if_false, Config.lutSpace] at hb ⊢; omega

/-- Once READY = 1 the builder does nothing (R163). -/
theorem builderEdge_of_ready {s : State} (h : s.status.ready = true) : builderEdge s = s := by
  obtain ⟨_, _, st, _, _, _, _, _⟩ := s
  obtain ⟨_, _, _, _, _, _, _, _, _⟩ := st
  simp_all [builderEdge]

/-- The builder keeps the canonical form of the LUT space. -/
theorem wf_builderEdge {s : State} (h : s.lut.wf = true) : (builderEdge s).lut.wf = true := by
  rw [builderEdge_lut]; split
  · exact h
  · exact wf_buildWrites _ _ _ h

end Sys2Proof.Machine
end

