-- ==== Sys2Proof/Laws/Lines.lean ====
section
/-! SUPPORT. Nibbles, lines and boards: what each part of the datapath does to one cell. -/

namespace Sys2Proof.Machine

/-! ### Nibbles -/

theorem getLsbD_nib {w : Nat} (v : BitVec w) (i k : Nat) :
    (nib v i).getLsbD k = (decide (k < 4) && v.getLsbD (4 * i + k)) := by
  simp [nib]

/-- Equal nibbles, equal values: for boards. -/
theorem board_ext {b b' : Board} (h : ∀ i < 16, nib b i = nib b' i) : b = b' := by
  apply BitVec.eq_of_getLsbD_eq
  intro k hk
  have := congrArg (fun c => c.getLsbD (k % 4)) (h (k / 4) (by omega))
  simpa only [getLsbD_nib, Nat.mod_lt _ (show 4 > 0 by omega), Nat.div_add_mod, decide_true,
    Bool.true_and] using this

/-- Equal nibbles, equal values: for lines. -/
theorem line_ext {l l' : Line} (h : ∀ i < 4, nib l i = nib l' i) : l = l' := by
  apply BitVec.eq_of_getLsbD_eq
  intro k hk
  have := congrArg (fun c => c.getLsbD (k % 4)) (h (k / 4) (by omega))
  simpa only [getLsbD_nib, Nat.mod_lt _ (show 4 > 0 by omega), Nat.div_add_mod, decide_true,
    Bool.true_and] using this

@[simp] theorem nib_or {w : Nat} (u v : BitVec w) (i : Nat) : nib (u ||| v) i = nib u i ||| nib v i := by
  apply BitVec.eq_of_getLsbD_eq; intro k _; simp only [getLsbD_nib, BitVec.getLsbD_or]; grind

@[simp] theorem nib_and {w : Nat} (u v : BitVec w) (i : Nat) : nib (u &&& v) i = nib u i &&& nib v i := by
  apply BitVec.eq_of_getLsbD_eq; intro k _; simp only [getLsbD_nib, BitVec.getLsbD_and]; grind

@[simp] theorem nib_zero {w : Nat} (i : Nat) : nib (0#w) i = 0 := by
  apply BitVec.eq_of_getLsbD_eq; intro k _; simp [getLsbD_nib]

/-- A nibble of a value moved up by whole nibbles. -/
theorem nib_shiftLeft {w : Nat} (v : BitVec w) (j i : Nat) (h : 4 * (i + 1) ≤ w) :
    nib (v <<< (4 * j)) i = if i < j then 0 else nib v (i - j) := by
  apply BitVec.eq_of_getLsbD_eq
  intro k hk
  split
  · simp [getLsbD_nib]; omega
  · simp only [getLsbD_nib, BitVec.getLsbD_shiftLeft]
    rw [show 4 * i + k - 4 * j = 4 * (i - j) + k by omega,
      show decide (4 * i + k < w) = true by simp; omega,
      show decide (4 * i + k < 4 * j) = false by simp; omega]
    simp

/-- A nibble of a value moved down by whole nibbles. -/
theorem nib_shiftRight {w : Nat} (v : BitVec w) (j i : Nat) :
    nib (v >>> (4 * j)) i = nib v (j + i) := by
  apply BitVec.eq_of_getLsbD_eq
  intro k hk
  simp only [getLsbD_nib, BitVec.getLsbD_ushiftRight]
  rw [show 4 * j + (4 * i + k) = 4 * (j + i) + k by omega]

/-- A nibble of a value zero-extended. -/
theorem nib_setWidth {w : Nat} (v : BitVec w) (w' i : Nat) (h : 4 * (i + 1) ≤ w') :
    nib (v.setWidth w') i = nib v i := by
  apply BitVec.eq_of_getLsbD_eq
  intro k hk
  simp only [getLsbD_nib, BitVec.getLsbD_setWidth]
  rw [show decide (4 * i + k < w') = true by simp; omega, Bool.true_and]

theorem nib_code (t : Code) (i : Nat) : nib t i = if i = 0 then t else 0 := by
  apply BitVec.eq_of_getLsbD_eq
  intro k hk
  split
  · subst_vars; simp only [getLsbD_nib, hk, decide_true, Bool.true_and, Nat.mul_zero, Nat.zero_add]
  · rw [getLsbD_nib, BitVec.getLsbD_of_ge t _ (by omega)]; simp

/-- A nibble out of range reads 0. -/
theorem nib_of_ge {w : Nat} (v : BitVec w) {i : Nat} (h : w ≤ 4 * i) : nib v i = 0 := by
  apply BitVec.eq_of_getLsbD_eq
  intro k hk
  rw [getLsbD_nib, BitVec.getLsbD_of_ge v _ (by omega)]; simp

theorem code_and_ones (c : Code) : c &&& 0xF = c := by
  rw [show (0xF : Code) = BitVec.allOnes 4 from rfl, BitVec.and_allOnes]

/-- Setting a nibble changes that nibble alone (R10). -/
theorem nib_setnib (b : Board) {i j : Nat} (t : Code) (hi : i < 16) (hj : j < 16) :
    nib (setnib b i t) j = if j = i then t else nib b j := by
  have hm : nib (~~~((0xF#4).setWidth 64 <<< (4 * i)) : Board) j = if j = i then 0 else 0xF := by
    interval_cases i <;> interval_cases j <;> decide
  rw [setnib, nib_or, nib_and, hm, nib_shiftLeft _ _ _ (by omega)]
  rcases Nat.lt_trichotomy j i with h | h | h
  · rw [if_neg (by omega), if_pos h, if_neg (by omega), code_and_ones]; simp
  · subst h; simp [nib_setWidth, nib_code]
  · rw [nib_setWidth _ _ _ (by omega), nib_code, if_neg (by omega), if_neg (by omega),
      if_neg (by omega), if_neg (by omega), code_and_ones]; simp

/-! ### Lines from tiles -/

theorem nib_ofTiles (t0 t1 t2 t3 : Code) (i : Nat) :
    nib (ofTiles t0 t1 t2 t3) i = [t0, t1, t2, t3].getD i 0 := by
  apply BitVec.eq_of_getLsbD_eq
  intro k hk
  simp only [getLsbD_nib, ofTiles, BitVec.getLsbD_append]
  rcases i with _ | _ | _ | _ | i
  · simp [hk]
  · simp [hk, show ¬ 4 + k < 4 by omega]
  · simp [hk, show ¬ 8 + k < 4 by omega, show ¬ 8 + k - 4 < 4 by omega, show 8 + k - 4 - 4 = k by omega]
  · simp [hk, show ¬ 12 + k < 4 by omega, show ¬ 12 + k - 4 < 4 by omega,
      show ¬ 12 + k - 4 - 4 < 4 by omega, show 12 + k - 4 - 4 - 4 = k by omega]
  · simp only [List.getD_cons_succ, List.getD_nil]
    rw [if_neg (by omega), if_neg (by omega), if_neg (by omega), BitVec.getLsbD_of_ge _ _ (by omega)]
    simp

@[simp] theorem tiles_ofTiles (t0 t1 t2 t3 : Code) : tiles (ofTiles t0 t1 t2 t3) = [t0, t1, t2, t3] := by
  simp [tiles, nib_ofTiles]

/-- A line is made of its four nibbles (R10). -/
theorem ofTiles_nibs (l : Line) : ofTiles (nib l 0) (nib l 1) (nib l 2) (nib l 3) = l := by
  apply line_ext
  intro i hi
  rw [nib_ofTiles]
  interval_cases i <;> rfl

theorem ofTiles_inj {t0 t1 t2 t3 u0 u1 u2 u3 : Code} (h : ofTiles t0 t1 t2 t3 = ofTiles u0 u1 u2 u3) :
    t0 = u0 ∧ t1 = u1 ∧ t2 = u2 ∧ t3 = u3 := by
  have := congrArg tiles h; simpa using this

/-- `slide` on a line written by its tiles is the scan of R142. -/
theorem slide_ofTiles (t0 t1 t2 t3 : Code) :
    slide (ofTiles t0 t1 t2 t3) = lineOfTiles (slideTiles [t0, t1, t2, t3]) := by
  simp [slide]

/-! ### Lines of a board -/

theorem nib_restride (x : Board) (stride i : Nat) (hi : i < 4) :
    nib (restride x stride) i = nib x (stride * i) := by
  rw [show restride x stride = ofTiles (nib x (stride * 0)) (nib x (stride * 1)) (nib x (stride * 2))
    (nib x (stride * 3)) from rfl, nib_ofTiles]
  interval_cases i <;> rfl

theorem nib_rowMask {j i : Nat} (hj : j < 4) (hi : i < 16) :
    nib (rowMask j) i = if i / 4 = j then 0xF else 0 := by
  interval_cases j <;> interval_cases i <;> decide

theorem nib_colMask {j i : Nat} (hj : j < 4) (hi : i < 16) :
    nib (colMask j) i = if i % 4 = j then 0xF else 0 := by
  interval_cases j <;> interval_cases i <;> decide

/-- Nibble `i` of the natural line `j` is the cell at index `i` along it (R134). -/
theorem nib_line (b : Board) (a : Axis) {j i : Nat} (hj : j < 4) (hi : i < 4) :
    nib (line b a j) i = nib b (lineCell a j i) := by
  rw [line, nib_restride _ _ _ hi]
  cases a with
  | rows =>
    simp only [strideOf, lineShift, lineMask, lineCell, cellIndex]
    rw [show 16 * j = 4 * (4 * j) by omega, nib_shiftRight, nib_and, nib_rowMask hj (by omega),
      if_pos (by omega), code_and_ones, Nat.one_mul]
  | cols =>
    simp only [strideOf, lineShift, lineMask, lineCell, cellIndex]
    rw [nib_shiftRight, nib_and, nib_colMask hj (by omega), if_pos (by omega), code_and_ones,
      show j + 4 * i = 4 * i + j by omega]

theorem nib_spread (n : Line) (stride k i : Nat) (h : i < 16) :
    nib (spreadNib n stride k) i = if i = stride * k then nib n k else 0 := by
  rw [spreadNib, Nat.mul_assoc, nib_shiftLeft _ _ _ (by omega)]
  rcases Nat.lt_trichotomy i (stride * k) with h1 | h1 | h1
  · simp [h1, show ¬ i = stride * k by omega]
  · subst h1; simp [nib_setWidth, nib_code]
  · rw [nib_setWidth _ _ _ (by omega), nib_code]
    simp [show ¬ i < stride * k by omega, show ¬ i = stride * k by omega,
      show ¬ i - stride * k = 0 by omega]

/-- Nibble `i` of a line spread at stride 4 (R132). -/
theorem nib_unrestride (n : Line) {i : Nat} (h : i < 16) :
    nib (unrestride n 4) i = if i % 4 = 0 then nib n (i / 4) else 0 := by
  simp only [unrestride, nib_or, nib_spread _ _ _ _ h]
  interval_cases i <;> simp

/-- A cell of a placed row (R135). -/
theorem nib_place_rows (n : Line) {j i : Nat} (hj : j < 4) (hi : i < 16) :
    nib (place n .rows j) i = if i / 4 = j then nib n (i % 4) else 0 := by
  rw [place, show 16 * j = 4 * (4 * j) by omega, nib_shiftLeft _ _ _ (by omega)]
  rcases Nat.lt_trichotomy (i / 4) j with h | h | h
  · rw [if_pos (by omega), if_neg (by omega)]
  · rw [if_neg (by omega), if_pos h, nib_setWidth _ _ _ (by omega), show i - 4 * j = i % 4 by omega]
  · rw [if_neg (by omega), if_neg (by omega), nib_setWidth _ _ _ (by omega), nib_of_ge _ (by omega)]

/-- A cell of a placed column (R135). -/
theorem nib_place_cols (n : Line) {j i : Nat} (hj : j < 4) (hi : i < 16) :
    nib (place n .cols j) i = if i % 4 = j then nib n (i / 4) else 0 := by
  rw [place, nib_shiftLeft _ _ _ (by omega)]
  by_cases h : i < j
  · rw [if_pos h, if_neg (by omega)]
  · rw [if_neg h, nib_unrestride _ (by omega)]
    by_cases h2 : i % 4 = j
    · rw [if_pos (by omega), if_pos h2, show (i - j) / 4 = i / 4 by omega]
    · rw [if_neg (by omega), if_neg h2]

/-- A cell of a placed line: the line's cell on the line, 0 elsewhere (R135). -/
theorem nib_place_lineCell (n : Line) (a : Axis) {j k i : Nat} (hj : j < 4) (hk : k < 4) (hi : i < 4) :
    nib (place n a j) (lineCell a k i) = if k = j then nib n i else 0 := by
  cases a with
  | rows =>
    simp only [lineCell, cellIndex]
    rw [nib_place_rows n hj (by omega), show (4 * k + i) / 4 = k by omega,
      show (4 * k + i) % 4 = i by omega]
  | cols =>
    simp only [lineCell, cellIndex]
    rw [nib_place_cols n hj (by omega), show (4 * i + k) % 4 = k by omega,
      show (4 * i + k) / 4 = i by omega]

/-- A cell of four placed lines is the cell of its line (R191). -/
theorem nib_placeAll (a : Axis) (m : Nat → Line) {j i : Nat} (hj : j < 4) (hi : i < 4) :
    nib (placeAll a m) (lineCell a j i) = nib (m j) i := by
  simp only [placeAll, nib_or, nib_place_lineCell _ _ (show 0 < 4 by omega) hj hi,
    nib_place_lineCell _ _ (show 1 < 4 by omega) hj hi,
    nib_place_lineCell _ _ (show 2 < 4 by omega) hj hi,
    nib_place_lineCell _ _ (show 3 < 4 by omega) hj hi]
  interval_cases j <;> simp

/-- Every cell is a cell of one line of either axis. -/
theorem exists_lineCell (a : Axis) {i : Nat} (h : i < 16) :
    ∃ j k, j < 4 ∧ k < 4 ∧ lineCell a j k = i := by
  cases a with
  | rows => exact ⟨i / 4, i % 4, by omega, by omega, by simp only [lineCell, cellIndex]; omega⟩
  | cols => exact ⟨i % 4, i / 4, by omega, by omega, by simp only [lineCell, cellIndex]; omega⟩

theorem lineCell_lt (a : Axis) {j i : Nat} (hj : j < 4) (hi : i < 4) : lineCell a j i < 16 := by
  cases a <;> simp only [lineCell, cellIndex] <;> omega

/-- Boards with the same cells along an axis are equal. -/
theorem board_ext_lines (a : Axis) {b b' : Board}
    (h : ∀ j < 4, ∀ i < 4, nib b (lineCell a j i) = nib b' (lineCell a j i)) : b = b' := by
  apply board_ext
  intro i hi
  obtain ⟨j, k, hj, hk, rfl⟩ := exists_lineCell a hi
  exact h j hj k hk

/-- A line of four placed lines is that line. -/
theorem line_placeAll (a : Axis) (m : Nat → Line) {j : Nat} (hj : j < 4) :
    line (placeAll a m) a j = m j := by
  apply line_ext
  intro i hi
  rw [nib_line _ _ hj hi, nib_placeAll _ _ hj hi]

/-! ### The trailing edge -/

theorem edgeCell_lt (d : Dir) {j : Nat} (hj : j < 4) : edgeCell d j < 16 := by
  cases d <;> simp only [edgeCell] <;> omega

/-- The trailing-edge cell of line `j` is the last cell of its canonical line (R137). -/
theorem edgeCell_eq (d : Dir) (j : Nat) :
    edgeCell d j = lineCell (axisOf d) j (match d with | .left | .up => 3 | .right | .down => 0) := by
  cases d <;> simp only [edgeCell, lineCell, axisOf, cellIndex] <;> omega

theorem mem_emptyEdges {d : Dir} {b : Board} {j : Nat} :
    j ∈ emptyEdges d b ↔ j < 4 ∧ nib b (edgeCell d j) = 0 := by
  simp [emptyEdges]

/-- What the insertion multiplexer does (R195, R196, R198): one of three cases. -/
theorem insertTile_cases (d : Dir) (t : Code) (r : Sel) (c : Board) :
    (emptyEdges d c = [] ∧ insertTile d t r c = ⟨c, false, 0, true⟩) ∨
    (emptyEdges d c ≠ [] ∧ t = 0 ∧ insertTile d t r c = ⟨c, false, 0, false⟩) ∨
    (emptyEdges d c ≠ [] ∧ t ≠ 0 ∧ ∃ k, k ∈ emptyEdges d c ∧
      (emptyEdges d c)[r.toNat % (emptyEdges d c).length]? = some k ∧
      insertTile d t r c = ⟨setnib c (edgeCell d k) t, true, edgeCell d k, false⟩) := by
  by_cases h : emptyEdges d c = []
  · left; exact ⟨h, by simp [insertTile, h]⟩
  · have hl : (emptyEdges d c).length ≠ 0 := by simpa using h
    by_cases ht : t = 0
    · right; left; exact ⟨h, ht, by simp [insertTile, h, ht]⟩
    · right; right
      have hlt : r.toNat % (emptyEdges d c).length < (emptyEdges d c).length :=
        Nat.mod_lt _ (by omega)
      refine ⟨h, ht, (emptyEdges d c)[r.toNat % (emptyEdges d c).length], List.getElem_mem _,
        List.getElem?_eq_getElem hlt, ?_⟩
      have ht' : ¬ t = 0#4 := ht
      simp [insertTile, hl, ht', List.getD_eq_getElem?_getD, List.getElem?_eq_getElem hlt]

end Sys2Proof.Machine
end

