-- ==== Sys2Proof/Laws/Words.lean ====
section
/-! SUPPORT. The fields of an assembled command word, and the bits outside them (spec/30_encoding.md R82, R83). -/

namespace Sys2Proof

theorem getLsbD_assembleWord (op : BitVec 4) (dir : BitVec 2) (tile : Code) (sel : Sel) (imm : BitVec 16)
    {k : Nat} (hk : k < 32) :
    (assembleWord op dir tile sel imm).getLsbD k =
      if k < 4 then op.getLsbD k
      else if k < 8 then dir.getLsbD (k - 4)
      else if k < 12 then tile.getLsbD (k - 8)
      else if k < 16 then sel.getLsbD (k - 12)
      else imm.getLsbD (k - 16) := by
  have h : ∀ {w : Nat} (v : BitVec w) (q : Nat), w ≤ q → v.getLsbD q = false :=
    fun v q hq => BitVec.getLsbD_of_ge v q hq
  simp only [assembleWord, BitVec.getLsbD_or, BitVec.getLsbD_shiftLeft, BitVec.getLsbD_setWidth, hk,
    decide_true, Bool.true_and]
  split_ifs <;>
    simp (disch := omega) only [h, Bool.not_true, Bool.not_false, Bool.false_and, Bool.true_and,
      Bool.or_false, Bool.false_or, Bool.and_false, decide_eq_true, decide_eq_false]

@[simp] theorem opField_assembleWord (op : BitVec 4) (dir : BitVec 2) (tile : Code) (sel : Sel)
    (imm : BitVec 16) : opField (assembleWord op dir tile sel imm) = op := by
  apply BitVec.eq_of_getLsbD_eq; intro k hk
  rw [opField, BitVec.getLsbD_extractLsb', getLsbD_assembleWord _ _ _ _ _ (by omega)]
  simp [hk]

@[simp] theorem dirField_assembleWord (op : BitVec 4) (dir : BitVec 2) (tile : Code) (sel : Sel)
    (imm : BitVec 16) : dirField (assembleWord op dir tile sel imm) = dir := by
  apply BitVec.eq_of_getLsbD_eq; intro k hk
  rw [dirField, BitVec.getLsbD_extractLsb', getLsbD_assembleWord _ _ _ _ _ (by omega)]
  simp [hk, show 4 + k < 8 by omega]

@[simp] theorem tileField_assembleWord (op : BitVec 4) (dir : BitVec 2) (tile : Code) (sel : Sel)
    (imm : BitVec 16) : tileField (assembleWord op dir tile sel imm) = tile := by
  apply BitVec.eq_of_getLsbD_eq; intro k hk
  rw [tileField, BitVec.getLsbD_extractLsb', getLsbD_assembleWord _ _ _ _ _ (by omega)]
  simp [hk, show ¬ 8 + k < 4 by omega, show 8 + k < 12 by omega]

@[simp] theorem selField_assembleWord (op : BitVec 4) (dir : BitVec 2) (tile : Code) (sel : Sel)
    (imm : BitVec 16) : selField (assembleWord op dir tile sel imm) = sel := by
  apply BitVec.eq_of_getLsbD_eq; intro k hk
  rw [selField, BitVec.getLsbD_extractLsb', getLsbD_assembleWord _ _ _ _ _ (by omega)]
  simp [hk, show ¬ 12 + k < 4 by omega, show ¬ 12 + k < 8 by omega, show 12 + k < 16 by omega]

@[simp] theorem immField_assembleWord (op : BitVec 4) (dir : BitVec 2) (tile : Code) (sel : Sel)
    (imm : BitVec 16) : immField (assembleWord op dir tile sel imm) = imm := by
  apply BitVec.eq_of_getLsbD_eq; intro k hk
  rw [immField, BitVec.getLsbD_extractLsb', getLsbD_assembleWord _ _ _ _ _ (by omega)]
  simp [hk, show ¬ 16 + k < 4 by omega, show ¬ 16 + k < 8 by omega, show ¬ 16 + k < 12 by omega]

/-- A word is what its fields assemble to, but for RSV. -/
theorem word_ext {u v : CmdWord} (h : ∀ k < 32, u.getLsbD k = v.getLsbD k) : u = v :=
  BitVec.eq_of_getLsbD_eq fun k hk => h k hk

theorem getLsbD_assembleReserved (op : BitVec 4) (rest : BitVec 28) {k : Nat} (hk : k < 32) :
    (assembleReserved op rest).getLsbD k = if k < 4 then op.getLsbD k else rest.getLsbD (k - 4) := by
  simp only [assembleReserved, BitVec.getLsbD_or, BitVec.getLsbD_shiftLeft, BitVec.getLsbD_setWidth, hk,
    decide_true, Bool.true_and]
  split_ifs with h
  · simp [h]
  · rw [BitVec.getLsbD_of_ge op k (by omega)]; simp [h]; omega

@[simp] theorem opField_assembleReserved (op : BitVec 4) (rest : BitVec 28) :
    opField (assembleReserved op rest) = op := by
  apply BitVec.eq_of_getLsbD_eq; intro k hk
  rw [opField, BitVec.getLsbD_extractLsb', getLsbD_assembleReserved _ _ (by omega)]
  simp [hk]

@[simp] theorem restField_assembleReserved (op : BitVec 4) (rest : BitVec 28) :
    restField (assembleReserved op rest) = rest := by
  apply BitVec.eq_of_getLsbD_eq; intro k hk
  rw [restField, BitVec.getLsbD_extractLsb', getLsbD_assembleReserved _ _ (by omega)]
  simp [hk]

/-- The 28 open bits of a reserved row are masked out. -/
theorem reserved_and_mask (op : BitVec 4) (rest : BitVec 28) :
    assembleReserved op rest &&& 0x0000000F = op.setWidth 32 := by
  apply word_ext; intro k hk
  rw [BitVec.getLsbD_and, getLsbD_assembleReserved _ _ hk, BitVec.getLsbD_setWidth]
  have hm : (0x0000000F : CmdWord).getLsbD k = decide (k < 4) := by interval_cases k <;> decide
  rw [hm]
  by_cases h : k < 4
  · simp [h, hk]
  · simp [h]; intro _; exact BitVec.getLsbD_of_ge op k (by omega)

/-- What a mask keeps of an assembled word, field by field: each field is kept or cleared whole. -/
theorem assembleWord_and (op : BitVec 4) (dir : BitVec 2) (tile : Code) (sel : Sel) (imm : BitVec 16)
    (mop : BitVec 4) (mdir : BitVec 2) (mtile msel : BitVec 4) (mimm : BitVec 16) (mask : CmdWord)
    (hm : ∀ k < 32, mask.getLsbD k = if 6 ≤ k ∧ k < 8 then true else
      (assembleWord mop mdir mtile msel mimm).getLsbD k) :
    assembleWord op dir tile sel imm &&& mask =
      assembleWord (op &&& mop) (dir &&& mdir) (tile &&& mtile) (sel &&& msel) (imm &&& mimm) := by
  apply word_ext; intro k hk
  rw [BitVec.getLsbD_and, hm k hk]
  simp only [getLsbD_assembleWord _ _ _ _ _ hk]
  split_ifs <;> simp <;> first | omega | skip
  intro h
  rw [BitVec.getLsbD_of_ge dir (k - 4) (by omega)] at h
  exact absurd h (by simp)

end Sys2Proof
end

