-- ==== Sys2Proof/Laws/PerInstr.lean ====
section
/-! SUPPORT. Facts about every instruction as syntax, one lemma per constructor: an instruction's word is a legal
word (spec/30_encoding.md R89) exactly when the instruction is a legal command. -/

namespace Sys2Proof.Laws.LegalWord

/-- The word of an instruction is legal exactly when the instruction is. -/
def Statement (i : Instr) : Prop := legalWord (encodeWord i) = i.wellFormed

theorem nop : Statement .nop := rfl

theorem loadBoard (board : Board) : Statement (.loadBoard board) := by
  show legalWord (assembleWord 0x1 0 0 0 0) = true; decide

theorem readBoard : Statement .readBoard := rfl

theorem masked_out {w : Nat} (v : BitVec w) : v &&& (0 : BitVec w) = 0 := BitVec.and_zero

/-- A command's word is legal when its masked fields are the row's pattern. -/
theorem of_mask {op : BitVec 4} {dir : BitVec 2} {tile : Code} {sel : Sel} {imm : BitVec 16}
    (hop : op.toNat ≤ 8)
    (h : assembleWord op dir tile sel imm &&& maskOf op = patternOf op) :
    legalWord (assembleWord op dir tile sel imm) = true := by
  simp [legalWord, hop, h]

theorem swipe (dir : Dir) (tile : Code) (sel : Sel) : Statement (.swipe dir tile sel) := by
  refine of_mask (by decide) ?_
  rw [assembleWord_and _ _ _ _ _ 0xF 0 0 0 0xFFFF _ (by decide)]
  simp only [masked_out]; decide

theorem score : Statement .score := rfl

theorem encode (face : Face) : Statement (.encode face) := by
  refine of_mask (by decide) ?_
  rw [assembleWord_and _ _ _ _ _ 0xF 3 0xF 0xF 0 _ (by decide)]
  simp only [masked_out]; decide

theorem decode (code : Code) : Statement (.decode code) := by
  refine of_mask (by decide) ?_
  rw [assembleWord_and _ _ _ _ _ 0xF 3 0 0xF 0xFFFF _ (by decide)]
  simp only [masked_out]; decide

theorem readStatus : Statement .readStatus := rfl

theorem lutRead (dir : Dir) (index : Line) : Statement (.lutRead dir index) := by
  refine of_mask (by decide) ?_
  rw [assembleWord_and _ _ _ _ _ 0xF 0 0xF 0xF 0 _ (by decide)]
  simp only [masked_out]; decide

/-- A reserved opcode's word is not legal. -/
theorem of_reserved (op : BitVec 4) (rest : BitVec 28) (h : 8 < op.toNat) :
    legalWord (assembleReserved op rest) = false := by
  simp [legalWord, show ¬ op.toNat ≤ 8 by omega]

theorem reserved9 (rest : BitVec 28) : Statement (.reserved9 rest) := of_reserved _ _ (by decide)
theorem reservedA (rest : BitVec 28) : Statement (.reservedA rest) := of_reserved _ _ (by decide)
theorem reservedB (rest : BitVec 28) : Statement (.reservedB rest) := of_reserved _ _ (by decide)
theorem reservedC (rest : BitVec 28) : Statement (.reservedC rest) := of_reserved _ _ (by decide)
theorem reservedD (rest : BitVec 28) : Statement (.reservedD rest) := of_reserved _ _ (by decide)
theorem reservedE (rest : BitVec 28) : Statement (.reservedE rest) := of_reserved _ _ (by decide)
theorem reservedF (rest : BitVec 28) : Statement (.reservedF rest) := of_reserved _ _ (by decide)

end Sys2Proof.Laws.LegalWord
end

