-- ==== Sys2Proof/Laws/Slide.lean ====
section
/-! SUPPORT. `slide` case by case, as R142 scans the line. -/

namespace Sys2Proof.Machine

/-- `slide` unrolled over the three positions of R142. -/
theorem slide_eq (t0 t1 t2 t3 : Code) :
    slide (ofTiles t0 t1 t2 t3) =
      if t0 = 0 then ofTiles t1 t2 t3 0
      else if t1 ≠ 0 ∧ mergeable t0 t1 = true then ofTiles (merged t0 t1) t2 t3 0
      else if t1 = 0 then ofTiles t0 t2 t3 0
      else if t2 ≠ 0 ∧ mergeable t1 t2 = true then ofTiles t0 (merged t1 t2) t3 0
      else if t2 = 0 then ofTiles t0 t1 t3 0
      else if t3 ≠ 0 ∧ mergeable t2 t3 = true then ofTiles t0 t1 (merged t2 t3) 0
      else ofTiles t0 t1 t2 t3 := by
  rw [slide_ofTiles]
  simp only [slideTiles, beq_iff_eq, Bool.and_eq_true, bne_iff_ne, ne_eq]
  split_ifs <;> rfl

/-- An empty cell merges with nothing (R139). -/
theorem mergeable_zero_left (b : Code) : mergeable 0 b = false := by revert b; decide

theorem mergeable_zero_right (a : Code) : mergeable a 0 = false := by revert a; decide

/-- A merge gives a tile (R140). -/
theorem merged_ne_zero {a b : Code} (h : mergeable a b = true) : merged a b ≠ 0 := by
  revert a b; decide

end Sys2Proof.Machine
end

