-- ==== Sys2Proof/Laws/Step.lean ====
section
/-! SUPPORT. What a command and an edge can do, said once: the inversion lemmas that proofs cite instead of
unfolding `exec` and `step`. -/

namespace Sys2Proof.Machine

/-! ### Commands -/

/-- SWIPE (R190): the five ways it ends. -/
theorem execSwipe_cases (d : Dir) (tl : Code) (r : Sel) (s : State) :
    (s.status.fault = true ∧ execSwipe d tl r s = .next (raise .faulted s)) ∨
    (s.status.fault = false ∧ commandReady s = false ∧
      execSwipe d tl r s = .next (raise .notReady s)) ∨
    (s.status.fault = false ∧ commandReady s = true ∧ lookupsValid d s = false ∧
      execSwipe d tl r s = .next (raise .lutMiss s)) ∨
    (s.status.fault = false ∧ commandReady s = true ∧ lookupsValid d s = true ∧
      candidate d s = s.board ∧ execSwipe d tl r s = .next (swipeNoop d s)) ∨
    (s.status.fault = false ∧ commandReady s = true ∧ lookupsValid d s = true ∧
      candidate d s ≠ s.board ∧
      execSwipe d tl r s = .next (swipeCommit d tl r (candidate d s) s)) := by
  unfold execSwipe
  by_cases hf : s.status.fault = true
  · exact .inl ⟨hf, if_pos hf⟩
  · rw [if_neg hf]
    have hf : s.status.fault = false := by simpa using hf
    by_cases hr : commandReady s = false
    · exact .inr (.inl ⟨hf, hr, if_pos hr⟩)
    · rw [if_neg hr]
      have hr : commandReady s = true := by simpa using hr
      by_cases hv : lookupsValid d s = false
      · exact .inr (.inr (.inl ⟨hf, hr, hv, if_pos hv⟩))
      · rw [if_neg hv]
        have hv : lookupsValid d s = true := by simpa using hv
        by_cases hc : candidate d s = s.board
        · exact .inr (.inr (.inr (.inl ⟨hf, hr, hv, hc, if_pos hc⟩)))
        · exact .inr (.inr (.inr (.inr ⟨hf, hr, hv, hc, if_neg hc⟩)))

/-- When a command answers with an error (R220, R225). -/
def RaisesFor (i : Instr) (s : State) (e : ErrCode) : Prop :=
  (e = .illegalCommand ∧ i.wellFormed = false) ∨ (e = .faulted ∧ s.status.fault = true) ∨
  (e = .notReady ∧ commandReady s = false) ∨ (e = .domain ∧ ∃ f, i = .encode f ∧ codeOf f = none) ∨
  (e = .lutMiss ∧ s.status.fault = false ∧ commandReady s = true ∧
    ∃ d tl r, i = .swipe d tl r ∧ lookupsValid d s = false)

/-- The commands that end with `complete` and change nothing else (R69). -/
def isQuery : Instr → Bool
  | .readBoard | .score | .encode _ | .decode _ | .lutRead _ _ => true
  | _ => false

/-- What any command does: an error, a query, NOP or READ_STATUS, a load, a no-op swipe or a committed
one. -/
theorem exec_cases {i : Instr} {s t : State} (h : exec i s = .next t) :
    (∃ e, RaisesFor i s e ∧ t = raise e s) ∨
    (isQuery i = true ∧ ∃ x, t = complete x s) ∨
    ((i = .nop ∨ i = .readStatus) ∧ ∃ x, t = respond .ok x s) ∨
    (∃ v, i = .loadBoard v ∧ s.status.fault = false ∧ t = complete 0 (loadBoard v s)) ∨
    (∃ d tl r, i = .swipe d tl r ∧ s.status.fault = false ∧ commandReady s = true ∧
      lookupsValid d s = true ∧ candidate d s = s.board ∧ t = swipeNoop d s) ∨
    (∃ d tl r, i = .swipe d tl r ∧ s.status.fault = false ∧ commandReady s = true ∧
      lookupsValid d s = true ∧ candidate d s ≠ s.board ∧
      t = swipeCommit d tl r (candidate d s) s) := by
  have hn : ∀ {u : State}, (Host.Outcome.next u : Result) = .next t → t = u := by
    intro u hu; injection hu with hu; exact hu.symm
  cases i with
  | nop => exact .inr (.inr (.inl ⟨.inl rfl, _, hn h⟩))
  | readStatus => exact .inr (.inr (.inl ⟨.inr rfl, _, hn h⟩))
  | readBoard => exact .inr (.inl ⟨rfl, _, hn h⟩)
  | loadBoard v =>
    simp only [exec, execLoadBoard] at h
    split at h
    · next hf => exact .inl ⟨.faulted, .inr (.inl ⟨rfl, hf⟩), hn h⟩
    · next hf => exact .inr (.inr (.inr (.inl ⟨v, rfl, by simpa using hf, hn h⟩)))
  | score =>
    simp only [exec, execScore] at h
    split at h
    · next hf => exact .inl ⟨.faulted, .inr (.inl ⟨rfl, hf⟩), hn h⟩
    · exact .inr (.inl ⟨rfl, _, hn h⟩)
  | decode c =>
    simp only [exec, execDecode] at h
    split at h
    · next hf => exact .inl ⟨.faulted, .inr (.inl ⟨rfl, hf⟩), hn h⟩
    · exact .inr (.inl ⟨rfl, _, hn h⟩)
  | encode f =>
    simp only [exec, execEncode] at h
    split at h
    · next hf => exact .inl ⟨.faulted, .inr (.inl ⟨rfl, hf⟩), hn h⟩
    · split at h
      · exact .inr (.inl ⟨rfl, _, hn h⟩)
      · next hd => exact .inl ⟨.domain, .inr (.inr (.inr (.inl ⟨rfl, f, rfl, hd⟩))), hn h⟩
  | lutRead d n =>
    simp only [exec, execLutRead] at h
    split at h
    · exact .inr (.inl ⟨rfl, _, hn h⟩)
    · next hr => exact .inl ⟨.notReady, .inr (.inr (.inl ⟨rfl, by simpa using hr⟩)), hn h⟩
  | swipe d tl r =>
    simp only [exec] at h
    rcases execSwipe_cases d tl r s with ⟨hf, he⟩ | ⟨hf, hr, he⟩ | ⟨hf, hr, hv, he⟩ |
      ⟨hf, hr, hv, hc, he⟩ | ⟨hf, hr, hv, hc, he⟩ <;> rw [he] at h
    · exact .inl ⟨.faulted, .inr (.inl ⟨rfl, hf⟩), hn h⟩
    · exact .inl ⟨.notReady, .inr (.inr (.inl ⟨rfl, hr⟩)), hn h⟩
    · exact .inl ⟨.lutMiss, .inr (.inr (.inr (.inr ⟨rfl, hf, hr, d, tl, r, rfl, hv⟩))), hn h⟩
    · exact .inr (.inr (.inr (.inr (.inl ⟨d, tl, r, rfl, hf, hr, hv, hc, hn h⟩))))
    · exact .inr (.inr (.inr (.inr (.inr ⟨d, tl, r, rfl, hf, hr, hv, hc, hn h⟩))))
  | reserved9 _ => exact .inl ⟨.illegalCommand, .inl ⟨rfl, rfl⟩, hn h⟩
  | reservedA _ => exact .inl ⟨.illegalCommand, .inl ⟨rfl, rfl⟩, hn h⟩
  | reservedB _ => exact .inl ⟨.illegalCommand, .inl ⟨rfl, rfl⟩, hn h⟩
  | reservedC _ => exact .inl ⟨.illegalCommand, .inl ⟨rfl, rfl⟩, hn h⟩
  | reservedD _ => exact .inl ⟨.illegalCommand, .inl ⟨rfl, rfl⟩, hn h⟩
  | reservedE _ => exact .inl ⟨.illegalCommand, .inl ⟨rfl, rfl⟩, hn h⟩
  | reservedF _ => exact .inl ⟨.illegalCommand, .inl ⟨rfl, rfl⟩, hn h⟩

/-! ### The parts of an accepted word's step -/

theorem runCommand_of_decode {w : CmdWord} {x : Data} {i : Instr} (h : decode w x = .ok i) (s : State) :
    runCommand w x s = exec i s := by
  simp [runCommand, h]

theorem runCommand_of_error {w : CmdWord} {x : Data} {e : DecodeError} (h : decode w x = .error e)
    (s : State) : runCommand w x s = .next (raise .illegalCommand s) := by
  simp [runCommand, h]

/-- An accepted word's step: the decoded command's, or ILLEGAL_COMMAND. -/
theorem runCommand_cases {w : CmdWord} {x : Data} {s t : State} (h : runCommand w x s = .next t) :
    (∃ i, decode w x = .ok i ∧ exec i s = .next t) ∨
    (∃ e, decode w x = .error e ∧ t = raise .illegalCommand s) := by
  unfold runCommand at h
  split at h
  · next i hd => exact .inl ⟨i, hd, h⟩
  · next e hd => injection h with h; exact .inr ⟨e, hd, h.symm⟩

/-! ### The port and the edge -/

/-- What the port does at an edge with `rst` = 0 (R81). -/
theorem portEdge_cases {p : Pins} {s t : State} (h : portEdge p s = .next t) :
    (s.port = .idle ∧ p.cmdValid = true ∧
      t = { s with port := .busy p.cmdWord p.cmdData (Config.cmdExtra (opField p.cmdWord))
                               s.status.ready }) ∨
    (s.port = .idle ∧ p.cmdValid = false ∧ t = s) ∨
    (∃ w x r, s.port = .busy w x 0 r ∧ runCommand w x s = .next t) ∨
    (∃ w x k r, s.port = .busy w x (k + 1) r ∧ t = { s with port := .busy w x k r }) ∨
    (∃ e x, s.port = .respond e x ∧ p.rspReady = true ∧ t = { s with port := .idle }) ∨
    (∃ e x, s.port = .respond e x ∧ p.rspReady = false ∧ t = s) := by
  unfold portEdge at h
  split at h
  · next hp =>
    split at h
    · next hc => injection h with h; exact .inl ⟨hp, hc, h.symm⟩
    · next hc => injection h with h; exact .inr (.inl ⟨hp, by simpa using hc, h.symm⟩)
  · next w x r hp => exact .inr (.inr (.inl ⟨w, x, r, hp, h⟩))
  · next w x k r hp =>
    injection h with h; exact .inr (.inr (.inr (.inl ⟨w, x, k, r, hp, h.symm⟩)))
  · next e x hp =>
    split at h
    · next hc => injection h with h; exact .inr (.inr (.inr (.inr (.inl ⟨e, x, hp, hc, h.symm⟩))))
    · next hc =>
      injection h with h
      exact .inr (.inr (.inr (.inr (.inr ⟨e, x, hp, by simpa using hc, h.symm⟩))))

/-- An edge: a reset, or the port's work and then the builder's (R250, R81, R70). -/
theorem step_cases {s t : State} (h : step s = .next t) :
    ((nextPins s).rst = true ∧ t = resetEdge (dropPins s)) ∨
    ((nextPins s).rst = false ∧ ∃ u, portEdge (nextPins s) (dropPins s) = .next u ∧ t = builderEdge u) := by
  simp only [step, clockEdge] at h
  split at h
  · next hr => injection h with h; exact .inl ⟨hr, h.symm⟩
  · next hr =>
    refine .inr ⟨by simpa using hr, ?_⟩
    cases hp : portEdge (nextPins s) (dropPins s) with
    | next u => rw [hp] at h; injection h with h; exact ⟨u, rfl, h.symm⟩
    | fault r => rw [hp] at h; nomatch h
    | refused r => rw [hp] at h; nomatch h

/-- An edge with `rst` = 0 whose port part is known. -/
theorem step_of_portEdge {s u : State} (hr : (nextPins s).rst = false)
    (h : portEdge (nextPins s) (dropPins s) = .next u) : step s = .next (builderEdge u) := by
  simp [step, clockEdge, hr, h, withBuilder]

end Sys2Proof.Machine
end

