-- ==== Sys2Proof/Tests/Slice0.lean ====
section
/-! SUPPORT. The model's own tests, with expected values from the spec (mostly spec/95_test_vectors.md), and for
each obligation with hypotheses a witness (`wit_…`) that meets them. -/

namespace Sys2Proof.Tests

open Sys2Proof Sys2Proof.Machine

/-! ### Small states -/

/-- The state an outcome goes on in. -/
def after : Result → Option State
  | .next t => some t
  | .fault _ => none
  | .refused _ => none

/-- The response a state presents. -/
def rsp (r : Result) : Option (BitVec 4 × Data) := (after r).bind response

/-- B0 of spec/95_test_vectors.md section 2.3. -/
abbrev b0 : Board := 0x2004000000330021

/-- READY = 1 with a board, its HIGHEST and only the LUT entries a test needs. -/
def ready (b : Board) (h : Code) (m : Memory) : State :=
  { State.reset with board := b, highest := h, lut := m, status := { Status.reset with ready := true } }

/-- The entries SWIPE LEFT reads on B0: its four rows, with `slide` of each (spec/95 V1, V5, V9, and row 3 of
S1's rows before and after). -/
def b0Left : Memory := [(0x0000, 0x0000), (0x0021, 0x0003), (0x0033, 0x0004), (0x2004, 0x0204)]

/-- The entries SWIPE DOWN reads on B0: its four columns before and after, from S4's rows. -/
def b0Down : Memory :=
  [(0x30000, 0x0000), (0x30032, 0x0320), (0x32000, 0x2000), (0x34031, 0x4310)]

/-- FAULT = 1 after step F1 of spec/95 section 2.6. -/
def faulted : State :=
  { ready b0 4 b0Left with status := { Status.reset with ready := true, fault := true, lastErr := .lutMiss } }

/-! ### Decoding: words written out from R82 and R87 (IMM16, SEL, TILE, RSV, DIR, OP) -/

theorem test_decode_nop : decode 0b0000000000000000_0000_0000_00_00_0000 5 = .ok .nop := by decide

theorem test_decode_loadBoard : decode 0b0000000000000000_0000_0000_00_00_0001 b0 = .ok (.loadBoard b0) := by
  decide

theorem test_decode_readBoard : decode 0b0000000000000000_0000_0000_00_00_0010 0 = .ok .readBoard := by decide

theorem test_decode_swipe : decode 0b0000000000000000_0001_0010_00_00_0011 0 = .ok (.swipe .left 2 1) := by
  decide

theorem test_decode_swipe_up : decode 0b0000000000000000_1011_0011_00_01_0011 0 = .ok (.swipe .up 3 11) := by
  decide

theorem test_decode_score : decode 0b0000000000000000_0000_0000_00_00_0100 0 = .ok .score := by decide

theorem test_decode_encode : decode 0b0000000000000110_0000_0000_00_00_0101 0 = .ok (.encode 6) := by decide

theorem test_decode_decode : decode 0b0000000000000000_0000_1111_00_00_0110 0 = .ok (.decode 15) := by decide

theorem test_decode_readStatus : decode 0b0000000000000000_0000_0000_00_00_0111 0 = .ok .readStatus := by
  decide

theorem test_decode_lutRead :
    decode 0b0010000100100001_0000_0000_00_10_1000 0 = .ok (.lutRead .right 0x2121) := by decide

theorem test_decode_reserved :
    decode 0b0000000000000000_0000_0000_00_00_1001 0 = .ok (.reserved9 0) ∧
    decode 0b0000000000000000_0000_0000_00_01_1010 0 = .ok (.reservedA 1) ∧
    decode 0b1000000000000000_0000_0000_00_00_1011 0 = .ok (.reservedB 0x8000000) ∧
    decode 0b0000000000000000_0000_0000_00_00_1100 0 = .ok (.reservedC 0) ∧
    decode 0b0000000000000000_0000_0000_00_00_1101 0 = .ok (.reservedD 0) ∧
    decode 0b0000000000000000_0000_0000_00_00_1110 0 = .ok (.reservedE 0) ∧
    decode 0xFFFFFFFF 0 = .ok (.reservedF 0xFFFFFFF) := by decide

/-- The illegal words of spec/95 section 2.6 are legal words of no command. -/
theorem test_illegal_words :
    ([0x00000009, 0x0000000F, 0x00000100, 0x00000040, 0x00010001, 0x00000012, 0x00000043, 0x00011203,
      0x00001004, 0x00030105, 0x00030015, 0x00001F06, 0x80000007, 0x00210108] : List CmdWord).all
      (fun w => !legalWord w) = true := by decide

/-- The table's numbering: the word's 32 bits, then `cmd_data`. -/
theorem test_decodeTableWord :
    decodeTableWord 32 0x00001203 = some (.swipe .left 2 1) ∧
    decodeTableWord 96 0x200400000033002100000001 = some (.loadBoard b0) ∧
    decodeTableWord 32 0x00000043 = none := by decide

/-! ### WellFormed: an ill-formed term of each kind, refused -/

theorem test_wellFormed_refuses_reserved (rest : BitVec 28) :
    ¬ WellFormed (.reserved9 rest) ∧ ¬ WellFormed (.reservedA rest) ∧ ¬ WellFormed (.reservedB rest) ∧
    ¬ WellFormed (.reservedC rest) ∧ ¬ WellFormed (.reservedD rest) ∧ ¬ WellFormed (.reservedE rest) ∧
    ¬ WellFormed (.reservedF rest) :=
  ⟨Bool.false_ne_true, Bool.false_ne_true, Bool.false_ne_true, Bool.false_ne_true, Bool.false_ne_true,
    Bool.false_ne_true, Bool.false_ne_true⟩

/-- An operand that does not fit is refused by the assembler (R93). -/
theorem test_assemble_refuses :
    assemble (.swipe (.name .left) 16 0) = none ∧ assemble (.swipe (.name .left) 0 16) = none ∧
    assemble (.decode 16) = none ∧ assemble (.encode 0x10000) = none ∧
    assemble (.lutRead (.name .up) 0x10000) = none ∧ assemble (.slide (.number 4)) = none ∧
    assemble (.loadBoard (2 ^ 64)) = none := by decide

theorem test_assemble_pseudo :
    (assemble (.move (.number 3) 5)).map encodeWord = some 0x00000533 ∧
    (assemble .clear).map encode = some (0x00000001, 0) := by decide

/-- Lines of text and their words, from spec/95 sections 2 and 3. -/
theorem test_assembleText :
    (["NOP", "READ_BOARD", "SWIPE LEFT, 2, 1", "SWIPE UP, 3, 11", "SCORE", "ENCODE 12288", "DECODE 15",
      "READ_STATUS", "LUT_READ RIGHT, 0x2121", "LUT_READ 3, 0x0021", "SLIDE LEFT"].map
        (fun l => (assembleText l.toList).map encodeWord)) =
      [some 0x00000000, some 0x00000002, some 0x00001203, some 0x0000B313, some 0x00000004, some 0x30000005,
        some 0x00000F06, some 0x00000007, some 0x21210028, some 0x00210038, some 0x00000003] ∧
    (assembleText "LOAD_BOARD 0x2004000000330021".toList).map encode = some (0x00000001, b0) := by decide

/-- Texts that are no line, and an operand that does not fit. -/
theorem test_assembleText_refuses :
    ["NOP 1", "SWIPE LEFT 2, 1", "ENCODE 12a", "JUMP 3", "SWIPE LEFT, 16, 1", "ENCODE 0x10000", ""].map
      (fun l => assembleText l.toList) = [none, none, none, none, none, none, none] := by decide

/-! ### The datapath (spec/95 section 2.2) -/

theorem test_slide_vectors :
    ([0x0000, 0x1000, 0x0100, 0x0003, 0x0021, 0x0012, 0x0011, 0x0022, 0x0033, 0x0043, 0x0330, 0x2003,
      0x3333, 0x00FF, 0x00EE, 0x2121, 0x0444, 0x1231, 0x3300, 0xFFEE] : List Line).map slide =
    [0x0000, 0x0100, 0x0010, 0x0003, 0x0003, 0x0003, 0x0011, 0x0022, 0x0004, 0x0043, 0x0033, 0x0203,
      0x0334, 0x00FF, 0x000F, 0x0213, 0x0045, 0x0331, 0x0330, 0x0FFF] := by decide

theorem test_right_entries :
    ([0x1000, 0x0003, 0x0021, 0x2003, 0x3333, 0x00EE, 0x2121, 0x3300, 0x7766, 0x3321] : List Line).map
      (transform .right) =
    [0x1000, 0x0030, 0x0210, 0x2030, 0x4330, 0x0EE0, 0x3210, 0x4000, 0x8660, 0x4210] := by decide

/-- The masks of R130's table, and the axes and trailing edges of R86. -/
theorem test_masks_and_edges :
    (List.range 4).map rowMask = [0x000000000000FFFF, 0x00000000FFFF0000, 0x0000FFFF00000000,
      0xFFFF000000000000] ∧
    (List.range 4).map colMask = [0x000F000F000F000F, 0x00F000F000F000F0, 0x0F000F000F000F00,
      0xF000F000F000F000] ∧
    [Dir.left, .up, .right, .down].map (fun d => (List.range 4).map (edgeCell d)) =
      [[3, 7, 11, 15], [12, 13, 14, 15], [0, 4, 8, 12], [0, 1, 2, 3]] := by decide

/-! ### Commands, one step each -/

/-- B7, and R181: LAST_ERR stays. -/
theorem test_nop : exec .nop faulted = .next { faulted with port := .respond .ok 0 } := rfl

/-- B3. -/
theorem test_loadBoard :
    (after (exec (.loadBoard b0) State.reset)).map (fun t => (t.board, t.highest, t.statusWord, response t)) =
      some (b0, 4, 0x00000400, some (0, 0)) := by decide

/-- F8. -/
theorem test_loadBoard_faulted :
    (after (exec (.loadBoard 0) faulted)).map (fun t => (t.board, t.statusWord, response t)) =
      some (b0, 0x00005403, some (5, 0)) := by decide

/-- F4. -/
theorem test_readBoard :
    (after (exec .readBoard faulted)).map (fun t => (t.statusWord, response t)) =
      some (0x00000403, some (0, b0)) := by decide

/-- S1. -/
theorem test_swipe_left :
    (after (exec (.swipe .left 2 1) (ready b0 4 b0Left))).map (fun t => (t.board, t.statusWord, response t)) =
      some (0x0204000020040003, 0x00F7040D, some (0, 0x0204000020040003)) := by decide

/-- S4. -/
theorem test_swipe_down :
    (after (exec (.swipe .down 2 1) (ready b0 4 b0Down))).map (fun t => (t.board, t.statusWord)) =
      some (0x2004003300210020, 0x00F104CD) := by decide

/-- S12: TILE = 0 inserts nothing, and HIGHEST rises. -/
theorem test_swipe_tile_zero :
    (after (exec (.swipe .left 0 0) (ready 0x21 2 b0Left))).map (fun t => (t.board, t.statusWord)) =
      some (0x0000000000000003, 0x00F00305) := by decide

/-- S13: two tiles of code 15 block, so the swipe is a no-op. -/
theorem test_swipe_noop :
    (after (exec (.swipe .left 1 0) (ready 0xFF 15 [(0, 0), (0xFF, 0xFF)]))).map
      (fun t => (t.board, t.statusWord, response t)) = some (0xFF, 0x00000F01, some (0, 0xFF)) := by decide

/-- F1: the entry 0x0021 is not valid. -/
theorem test_swipe_lut_miss :
    (after (exec (.swipe .left 2 1) (ready b0 4 [(0, 0), (0x33, 4), (0x2004, 0x0204)]))).map
      (fun t => (t.board, t.statusWord, response t)) = some (b0, 0x00004403, some (4, 0)) := by decide

/-- P4 step 2. -/
theorem test_swipe_not_ready :
    (after (exec (.swipe .left 1 0) State.reset)).map (fun t => (t.statusWord, response t)) =
      some (0x00002000, some (2, 0)) := by decide

/-- P1 step 6. -/
theorem test_score : rsp (exec .score (ready 0x0204000020040003 4 [])) = some (0, 0x15) := by decide

/-- The maximum (spec/95 section 2.4). -/
theorem test_score_max : rsp (exec .score (ready 0xFFFFFFFFFFFFFFFF 15 [])) = some (0, 0x1853D30) := by decide

/-- P2 steps 2 and 3. -/
theorem test_encode :
    rsp (exec (.encode 12288) State.reset) = some (0, 0xF) ∧
    (after (exec (.encode 4) (ready 0 0 []))).map (fun t => (t.statusWord, response t)) =
      some (0x00003001, some (3, 0)) := by decide

/-- E6. -/
theorem test_encode_faulted : rsp (exec (.encode 4) faulted) = some (5, 0) := by decide

/-- P2 step 5. -/
theorem test_decode : rsp (exec (.decode 15) State.reset) = some (0, 0x3000) := by decide

/-- F2. -/
theorem test_readStatus : exec .readStatus faulted = .next { faulted with port := .respond .ok 0x00004403 } := by
  rfl

/-- F6, with FAULT = 1 (spec/95 V8 for the entry). -/
theorem test_lutRead :
    (after (exec (.lutRead .left 0x0022) { faulted with lut := [(0x22, 0x22)] })).map
      (fun t => (t.statusWord, response t)) = some (0x00000403, some (0, 0x00010022)) := by decide

/-- F5: bit 16 is 0; the data is any value, so the test does not look at it. -/
theorem test_lutRead_invalid :
    ((rsp (exec (.lutRead .left 0x0021) { faulted with lut := [] })).map
      (fun r => (r.1, r.2.getLsbD 16))) = some (0, false) := by
  simp [rsp, after, exec, execLutRead, lutRead, lutEntryWord, flagBit, complete, respond, setLastErr,
    response, faulted, ready, commandReady, acceptedReady, State.reset, ErrCode.code, Memory.lookup]
  rw [← BitVec.getLsbD_eq_getElem, BitVec.getLsbD_append]
  rfl

/-- F9, with a reserved opcode, whatever its other bits. -/
theorem test_reserved :
    (after (exec (.reserved9 0x123) faulted)).map (fun t => (t.statusWord, response t)) =
      some (0x00001403, some (1, 0)) ∧
    rsp (exec (.reservedA 0) faulted) = some (1, 0) ∧ rsp (exec (.reservedB 0) faulted) = some (1, 0) ∧
    rsp (exec (.reservedC 0) faulted) = some (1, 0) ∧ rsp (exec (.reservedD 0) faulted) = some (1, 0) ∧
    rsp (exec (.reservedE 0) faulted) = some (1, 0) ∧ rsp (exec (.reservedF 0) State.reset) = some (1, 0) := by
  decide

/-! ### One edge -/

/-- The very next step runs the command that is placed. -/
theorem test_step_withFetchWord :
    rsp (step (State.reset.withFetchWord 32 0x00000F06)) = some (0, 0x3000) := by decide

/-- E4: an illegal word of a command's opcode, before READY. -/
theorem test_step_illegal : rsp (step (State.reset.withFetchWord 32 0x00000043)) = some (1, 0) := by decide

/-- R224, log 15: accepted while READY = 0, SWIPE and LUT_READ are refused though READY = 1 in their step. -/
theorem test_accepted_before_ready :
    rsp (step { ready b0 4 b0Left with port := .busy 0x00001203 0 0 false }) = some (2, 0) ∧
    rsp (step { ready b0 4 b0Left with port := .busy 0x00210008 0 0 false }) = some (2, 0) := by decide

/-- The same two words accepted with READY = 1 (S1; spec/95 V5 for the entry). -/
theorem test_accepted_after_ready :
    rsp (step { ready b0 4 b0Left with port := .busy 0x00001203 0 0 true }) = some (0, 0x0204000020040003) ∧
    rsp (step { ready b0 4 b0Left with port := .busy 0x00210008 0 0 true }) = some (0, 0x00010003) := by decide

/-- R252: a reset abandons the response and clears BOARD. -/
theorem test_step_reset :
    (after (step { faulted with port := .respond .ok b0, inputs := [{ Pins.quiet with rst := true }] })).map
      (fun t => (t.board, t.statusWord, t.port, t.lut)) = some (0, 0, .idle, []) := by decide

/-! ### The LUT space -/

/-- A read after a write, beside another entry; and the canonical form. -/
theorem test_memory_write :
    (Memory.write b0Left 0x0022 0x0022).lookup 0x0022 = some 0x0022 ∧
    (Memory.write b0Left 0x0022 0x0022).lookup 0x0021 = some 0x0003 ∧
    Memory.wf (Memory.write b0Left 0x0022 0x0022) = true ∧ Memory.wf b0Down = true := by decide

/-! ### Witnesses: states with the invariant -/

/-- The machine after its build, with a board loaded. -/
def built (b : Board) (h : Code) : State :=
  { ready b h (buildWrites 0 [] 0 Config.lutSpace) with builder := ⟨Config.buildLatency, Config.lutSpace⟩ }

theorem built_inv {b : Board} {h : Code} (hb : ∀ i < 16, (nib b i).toNat ≤ h.toNat) :
    MachineInv (built b h) := by
  constructor
  case canonical => simp only [built, ready]; exact wf_buildWrites 0 0 Config.lutSpace rfl
  case highest => exact hb
  case complete => exact fun _ => rfl
  case building => exact fun h => nomatch h
  case built => simp only [built, ready, State.reset]
  all_goals simp [built, ready, State.reset, Status.reset]

theorem built_tables (b : Board) (h : Code) : TablesBuilt (built b h) :=
  tablesBuilt_of_lut (s := built b h) (by simp only [built, ready, State.reset])

/-- The invariant holds in a state with READY = 1 and a board that is no fixed point. -/
theorem wit_inv_ready : MachineInv (built b0 4) ∧ (built b0 4).status.ready = true :=
  ⟨built_inv (by decide), rfl⟩

/-- And right after reset with a board loaded, READY = 0. -/
theorem wit_inv_building :
    MachineInv { State.reset with board := b0, highest := 4 } where
  canonical := rfl
  built := rfl
  complete := fun h => nomatch h
  building := fun _ => ⟨by decide, Nat.succ_pos _⟩
  noFault := rfl
  noErr := ⟨ErrCode.noConfusion, ErrCode.noConfusion⟩
  noErrResponse := fun _ => ⟨Port.noConfusion, Port.noConfusion⟩
  noReserved := fun _ => ⟨ErrCode.noConfusion, fun _ => Port.noConfusion⟩
  accepted := fun _ _ _ h => Port.noConfusion h
  noDefault := rfl
  highest := by decide
  insPos := fun _ => rfl
  insertedChanged := fun h => nomatch h
  edgeMask := Iff.intro (fun h => Bool.noConfusion h) (fun h => absurd rfl h)

/-- A build that has written one entry. -/
def buildingOne : State := { State.reset with lut := buildWrites 0 [] 0 1, builder := ⟨0, 1⟩ }

theorem wit_inv_buildingOne : MachineInv buildingOne := by
  constructor
  case canonical => exact wf_buildWrites 0 0 1 rfl
  case building => exact fun _ => ⟨by decide, Nat.succ_pos _⟩
  case highest => decide
  all_goals simp [buildingOne, State.reset, Status.reset]

theorem wit_valid_buildingOne : ∃ d n, (lutRead buildingOne d n).1 = true := by
  have h : buildAddr 0 0 < Config.lutSpace := buildAddr_lt 0 (by decide)
  refine ⟨addrDir (buildAddr 0 0), addrLine (buildAddr 0 0), ?_⟩
  rw [lutRead_of_lookup_some (x := transform _ _)]
  rw [lutAddr_addr h]
  exact lookup_buildWrites 0 [] (c := 1) (by decide) (Nat.le_refl 0) (by decide)

/-- With built tables SWIPE LEFT changes B0 and SWIPE LEFT of S13's board does not. -/
theorem wit_candidate :
    candidate .left (built b0 4) ≠ b0 ∧ candidate .left (built 0xFF 15) = 0xFF := by
  rw [candidate_of_built (built_tables b0 4), candidate_of_built (built_tables 0xFF 15)]
  decide

/-! ### Witnesses, in the order of the obligations -/

theorem wit_LegalWordIffExactlyOneCommandRow :
    legalWord 0x00000043 = false ∧ legalWord 0x00000009 = false ∧ legalWord 0xFFFFFFFF = false := by decide

theorem wit_EncodeOfDecodeIsTheWord :
    decode 0x0000FF33 0 = .ok (.swipe .down 15 15) ∧ decode 0x00000001 b0 = .ok (.loadBoard b0) := by decide

/-- Operands at the top of their ranges; one above is `test_assemble_refuses`. -/
theorem wit_AssemblerWordsAndRefusals :
    (assemble (.swipe (.name .down) 15 15)).map encodeWord = some 0x0000FF33 ∧
    (assemble (.decode 15)).map encodeWord = some 0x00000F06 ∧
    (assemble (.encode 65535)).map encodeWord = some 0xFFFF0005 ∧
    (assemble (.lutRead (.name .down) 65535)).map encodeWord = some 0xFFFF0038 ∧
    (assemble (.loadBoard (2 ^ 64 - 1))).map encode = some (0x00000001, 0xFFFFFFFFFFFFFFFF) := by decide

theorem wit_StepRunsTheDecodedCommand :
    (State.reset.withFetchWord 32 0x00000F06).port = .busy 0x00000F06 0 0 false ∧
    (nextPins (State.reset.withFetchWord 32 0x00000F06)).rst = false ∧
    decode 0x00000F06 0 = .ok (.decode 15) ∧
    (State.reset.withFetchWord 32 0x00000043).port = .busy 0x00000043 0 0 false ∧
    decode 0x00000043 0 = .error (.mustBeZero 3 0x40) := by decide

/-- A host that offers a command, that takes a response, that resets. -/
def offer : Pins := { Pins.quiet with cmdValid := true, cmdWord := 0x00001203 }
def offerRead : Pins := { offer with cmdWord := 0x00210008 }
def take : Pins := { Pins.quiet with rspReady := true }
def resetPins : Pins := { Pins.quiet with rst := true }

theorem wit_IdlePortAcceptsOfferedCommand :
    State.reset.port = .idle ∧ offer.rst = false ∧ offer.cmdValid = true ∧ Pins.quiet.rst = false ∧
    Pins.quiet.cmdValid = false ∧ { State.reset with inputs := [offer] }.inputs = offer :: [] := by decide

theorem wit_ResponseIsHeldUntilTaken :
    { State.reset with port := .respond .ok b0, inputs := [take] }.port = .respond .ok b0 ∧
    take.rst = false ∧ take.rspReady = true ∧ Pins.quiet.rspReady = false := by decide

theorem wit_CommandPinsIgnoredOutsideIdle :
    { State.reset with port := .busy 0 0 1 false }.port ≠ .idle ∧ offer ≠ Pins.quiet ∧
    offer.rst = Pins.quiet.rst ∧ offer.rspReady = Pins.quiet.rspReady := by decide

/-- A SWIPE and a LUT_READ, offered while READY = 0. -/
theorem wit_AcceptedCommandRespondsAfterItsLatency :
    State.reset.port = .idle ∧ offer.cmdValid = true ∧ State.reset.status.ready = false ∧
    State.reset.status.fault = false ∧ decode offer.cmdWord offer.cmdData = .ok (.swipe .left 2 1) ∧
    decode offerRead.cmdWord offerRead.cmdData = .ok (.lutRead .left 0x0021) ∧
    ∀ k, ResetLow k { State.reset with inputs := [offer] } ∧
      ResetLow k { State.reset with inputs := [offerRead] } := by
  refine ⟨rfl, rfl, rfl, rfl, by decide, by decide, fun k => ⟨fun p hp => ?_, fun p hp => ?_⟩⟩
  all_goals
    obtain rfl := List.mem_singleton.mp (List.mem_of_mem_take hp)
    rfl

theorem wit_ResetEdgeGivesResetValues :
    (nextPins { faulted with port := .busy 0x00001203 0 0 false, inputs := [resetPins] }).rst = true := by decide

theorem wit_IdleMachineHoldsItsState :
    (built b0 4).port = .idle ∧ (built b0 4).inputs = [] ∧ (built b0 4).status.ready = true := ⟨rfl, rfl, rfl⟩

/-- The last edge of a build, and a reset during one. -/
theorem wit_ReadyExactlyWhenTablesBuilt :
    (∃ s t, MachineInv s ∧ step s = .next t ∧ s.status.ready = false ∧ t.status.ready = true) ∧
    (∃ s t, MachineInv s ∧ step s = .next t ∧ s.status.ready = false ∧ t.status.ready = false) := by
  refine ⟨⟨{ State.reset with builder := ⟨Config.buildExtra, 0⟩ }, _, ?_, rfl, rfl, ?_⟩,
    ⟨{ State.reset with inputs := [resetPins] }, _, ?_, rfl, rfl, rfl⟩⟩
  · constructor <;> simp [State.reset, Status.reset, Memory.wf, Memory.sortedFrom, Config.buildLatency]
  · simp [builderEdge, buildEnds, Config.buildLatency, dropPins, State.reset, Status.reset]
  · constructor <;> simp [State.reset, Status.reset, Memory.wf, Memory.sortedFrom, Config.buildLatency]

theorem wit_BuildCompletesInBuildLatency :
    MachineInv { State.reset with board := b0, highest := 4 } ∧
    ∀ k, ResetLow k { State.reset with board := b0, highest := 4 } :=
  ⟨wit_inv_building, fun _ _ hp => nomatch List.mem_of_mem_take hp⟩

theorem wit_TablesImmutableAfterReady :
    (built b0 4).status.ready = true ∧ (nextPins (built b0 4)).rst = false ∧
    (∃ t, step (built b0 4) = .next t) ∧ (∃ t, exec .nop (built b0 4) = .next t) ∧
    (nextPins { built b0 4 with inputs := [resetPins] }).rst = true ∧
    (∃ t, step { built b0 4 with inputs := [resetPins] } = .next t) ∧
    buildingOne.status.ready = false ∧ MachineInv buildingOne ∧ (nextPins buildingOne).rst = false ∧
    (∃ t, step buildingOne = .next t) ∧ ∃ d n, (lutRead buildingOne d n).1 = true :=
  ⟨rfl, rfl, ⟨_, rfl⟩, ⟨_, rfl⟩, rfl, ⟨_, rfl⟩, rfl, wit_inv_buildingOne, rfl, ⟨_, rfl⟩, wit_valid_buildingOne⟩

theorem wit_LutSpaceStaysCanonical : State.reset.lut.wf = true ∧ ∃ t, step State.reset = .next t :=
  ⟨rfl, ⟨_, rfl⟩⟩

/-- READY = 1 with FAULT = 1 too, and READY = 0; `wit_inv_ready` has built tables. -/
theorem wit_LutReadReturnsTheEntry :
    commandReady faulted = true ∧ faulted.status.fault = true ∧ State.reset.status.ready = false ∧
    (0x00210108 : CmdWord).extractLsb' 0 4 = 0x8 ∧
    (0x00210108 : CmdWord) &&& 0x0000FFCF ≠ (0x8 : BitVec 4).setWidth 32 := by decide

theorem wit_EveryStepKeepsTheInvariant :
    MachineInv { State.reset with board := b0, highest := 4 } ∧
    ∃ t, step { State.reset with board := b0, highest := 4 } = .next t :=
  ⟨wit_inv_building, ⟨_, rfl⟩⟩

theorem wit_LutMissIsUnreachable :
    MachineInv (built b0 4) ∧ (built b0 4).status.ready = true ∧ ∃ t, exec .readBoard (built b0 4) = .next t :=
  ⟨wit_inv_ready.1, rfl, ⟨_, rfl⟩⟩

/-- FAULT 0 and 1, and a board that holds code 15. -/
theorem wit_LoadBoardStartsAGame :
    State.reset.status.fault = false ∧ faulted.status.fault = true ∧ nib (0xF000000000000000 : Board) 15 = 15 ∧
    (0x00010001 : CmdWord) &&& 0xFFFFFFFF ≠ (0x1 : BitVec 4).setWidth 32 := by decide

theorem wit_ReadBoardReturnsTheBoard :
    State.reset.status.fault = false ∧
    (∃ t, exec (.loadBoard b0) State.reset = .next t ∧ ∃ u, exec .readBoard t = .next u) ∧
    (0x00000012 : CmdWord) &&& 0xFFFFFFFF ≠ (0x2 : BitVec 4).setWidth 32 :=
  ⟨rfl, ⟨_, rfl, ⟨_, rfl⟩⟩, by decide⟩

theorem wit_ReadStatusReturnsEveryField :
    (ready 0 0 []).highest = 0 ∧ (ready 0 0 []).status = { Status.reset with ready := true } ∧
    (∃ s : State, s.highest = 4 ∧ s.status = { Status.reset with
      ready := true, changed := true, inserted := true, insPos := 7, edgeMask := 0xF }) ∧
    (0x80000007 : CmdWord) &&& 0xFFFFFFFF ≠ (0x7 : BitVec 4).setWidth 32 :=
  ⟨rfl, rfl, ⟨{ State.reset with highest := 4, status := { Status.reset with
      ready := true, changed := true, inserted := true, insPos := 7, edgeMask := 0xF } }, rfl, rfl⟩, by decide⟩

/-- `wit_inv_ready` and `wit_candidate` together: a move and a no-op on built tables. -/
theorem wit_SwipeAfterTheBuildPlaysTheMove :
    MachineInv (built b0 4) ∧ commandReady (built b0 4) = true ∧
    candidate .left (built b0 4) ≠ (built b0 4).board ∧ MachineInv (built 0xFF 15) ∧
    commandReady (built 0xFF 15) = true ∧ candidate .left (built 0xFF 15) = (built 0xFF 15).board :=
  ⟨wit_inv_ready.1, rfl, wit_candidate.1, built_inv (by decide), rfl, wit_candidate.2⟩

theorem wit_SwipeLanesAreIndependent :
    TablesBuilt (built b0 4) ∧ TablesBuilt (built 0x21 2) ∧
    line (built b0 4).board (axisOf .left) 0 = line (built 0x21 2).board (axisOf .left) 0 :=
  ⟨built_tables _ _, built_tables _ _, by decide⟩

/-- S13's state. -/
def blocked : State := ready 0xFF 15 [(0, 0), (0xFF, 0xFF)]

theorem wit_NoopSwipeConsumesNothing :
    blocked.status.fault = false ∧ commandReady blocked = true ∧ lookupsValid .left blocked = true ∧
    candidate .left blocked = blocked.board := by decide

/-- S1's state, which serves the statements on a committed SWIPE. -/
theorem wit_SwipeCommitsMoveAndInsertsTile :
    (ready b0 4 b0Left).status.fault = false ∧ commandReady (ready b0 4 b0Left) = true ∧
    lookupsValid .left (ready b0 4 b0Left) = true ∧
    candidate .left (ready b0 4 b0Left) ≠ (ready b0 4 b0Left).board ∧
    emptyEdges .left (candidate .left (ready b0 4 b0Left)) = [0, 1, 2, 3] := by decide

theorem wit_SwipeWithTileZeroInsertsNothing :
    decode 0x00000003 0 = .ok (.swipe .left 0 0) ∧ (ready 0x21 2 b0Left).status.fault = false ∧
    commandReady (ready 0x21 2 b0Left) = true ∧ lookupsValid .left (ready 0x21 2 b0Left) = true := by decide

/-- A faulty table, whose empty line gains a tile at its open end; and built tables. -/
theorem wit_DefensiveCaseIsDefinedAndUnreachable :
    (ready 0 0 [(0, 0x1000)]).status.fault = false ∧ commandReady (ready 0 0 [(0, 0x1000)]) = true ∧
    lookupsValid .left (ready 0 0 [(0, 0x1000)]) = true ∧
    candidate .left (ready 0 0 [(0, 0x1000)]) ≠ (ready 0 0 [(0, 0x1000)]).board ∧
    emptyEdges .left (candidate .left (ready 0 0 [(0, 0x1000)])) = [] ∧
    TablesBuilt (built b0 4) ∧ candidate .left (built b0 4) ≠ (built b0 4).board :=
  ⟨rfl, rfl, by decide, by decide, by decide, built_tables _ _, wit_candidate.1⟩

theorem wit_LutMissSetsStickyFault :
    (ready b0 4 []).status.fault = false ∧ commandReady (ready b0 4 []) = true ∧
    (lutRead (ready b0 4 []) .left (line b0 (axisOf .left) 3)).1 = false ∧
    (∃ t, exec .nop faulted = .next t) ∧ faulted.status.fault = true ∧ (nextPins faulted).rst = false ∧
    (∃ t, step faulted = .next t) ∧ (nextPins { faulted with inputs := [resetPins] }).rst = true ∧
    ∃ t, step { faulted with inputs := [resetPins] } = .next t :=
  ⟨rfl, rfl, rfl, ⟨_, rfl⟩, rfl, rfl, ⟨_, rfl⟩, rfl, ⟨_, rfl⟩⟩

theorem wit_HighestNeverFallsDuringPlay :
    (after (exec (.swipe .left 2 1) (ready b0 4 b0Left))).map
      (fun t => (t.status.lastErr, t.status.changed)) = some (.ok, true) ∧
    (after (exec (.swipe .left 1 0) blocked)).map
      (fun t => (t.status.lastErr, t.status.changed)) = some (.ok, false) ∧
    ∀ v, Instr.score ≠ .loadBoard v := ⟨by decide, by decide, fun _ h => nomatch h⟩

theorem wit_SelectorsZeroToElevenAreUniform :
    (2 : Code) ≠ 0 ∧ emptyEdges .left 0x4545060003340032 = [0, 1, 2] := by decide

theorem wit_ScoreReturnsTheSum :
    State.reset.status.fault = false ∧ faulted.status.fault = true ∧
    (∀ i < 16, (nib (0x2121212121212121 : Board) i).toNat ≤ 2) ∧
    (0x00001004 : CmdWord) &&& 0xFFFFFFFF ≠ (0x4 : BitVec 4).setWidth 32 := by decide

theorem wit_ScoreNeverWraps :
    (after (exec .score (ready 0xFFFFFFFFFFFFFFFF 15 []))).map State.port = some (.respond .ok 0x1853D30) := by
  decide

theorem wit_ScoreIgnoresTheOrderOfCells :
    (∀ i : Fin 16, nib (0x321 : Board) i.val = nib (0x123 : Board) ((Equiv.swap 0 2 : Equiv.Perm (Fin 16)) i).val) ∧
    (ready b0 4 []).status.fault = false ∧ (ready b0 4 []).board = (built b0 4).board ∧
    ∃ t t', exec .score (ready b0 4 []) = .next t ∧ exec .score (built b0 4) = .next t' :=
  ⟨by decide, rfl, rfl, ⟨_, _, rfl, rfl⟩⟩

theorem wit_CodeOfIsDefinedExactlyOnFaces :
    (2 : Face).toNat ≤ 2 ∧ (12 : Nat) ≤ 12 ∧ 2 < (4 : Face).toNat ∧
    (∀ k ≤ 12, (4 : Face).toNat ≠ 3 * 2 ^ k) ∧ ∀ k ≤ 12, (65535 : Face).toNat ≠ 3 * 2 ^ k := by decide

theorem wit_CodecIsInvertibleAndIncreasing :
    codeOf 12288 = some 15 ∧ codeOf 2 = some 2 ∧ (14 : Code).toNat < (15 : Code).toNat ∧
    (2 : Code).toNat < (3 : Code).toNat := by decide

theorem wit_EncodeAnswersCodeOrDomain :
    State.reset.status.fault = false ∧ codeOf 6 = some 4 ∧ codeOf 4 = none ∧ faulted.status.fault = true ∧
    (0x00030015 : CmdWord) &&& 0x0000FFFF ≠ (0x5 : BitVec 4).setWidth 32 := by decide

theorem wit_DecodeAnswersTheFace :
    State.reset.status.fault = false ∧ faulted.status.fault = true ∧
    (0x00001F06 : CmdWord) &&& 0xFFFFF0FF ≠ (0x6 : BitVec 4).setWidth 32 := by decide

theorem wit_ReservedOpcodesAnswerIllegalCommand :
    Instr.reservedF 0xFFFFFFF ∈ [Instr.reserved9 0xFFFFFFF, .reservedF 0xFFFFFFF] := by decide

/-- A reserved opcode, an RSV bit, a bit of an unused field. -/
theorem wit_IllegalWordsRaiseIllegalCommandFirst :
    9 ≤ ((0x00000009 : CmdWord).extractLsb' 0 4).toNat ∧
    (0x00000043 : CmdWord) &&& maskOf 3 &&& ~~~(0xF : CmdWord) ≠ 0 ∧
    (0x00010001 : CmdWord) &&& maskOf 1 &&& ~~~(0xF : CmdWord) ≠ 0 := by decide

theorem wit_ErrorsArePrecise :
    (after (runCommand 0x00001203 0 (ready b0 4 []))).map State.port = some (.respond .lutMiss 0) ∧
    (after (runCommand 0x00000043 0 faulted)).map State.port = some (.respond .illegalCommand 0) := by decide

theorem wit_LastErrFollowsTheResponse :
    (∃ t, runCommand 0x00000004 0 faulted = .next t) ∧ (0x00000004 : CmdWord) ≠ 0x00000000 ∧
    (0x00000004 : CmdWord) ≠ 0x00000007 ∧ (∃ t, runCommand 0x00000000 0 faulted = .next t) ∧
    ∃ t, runCommand 0x00000007 0 faulted = .next t :=
  ⟨⟨_, rfl⟩, by decide, by decide, ⟨_, rfl⟩, ⟨_, rfl⟩⟩

/-- READY = 0 in the step, and READY = 1 there with an acceptance before it. -/
theorem wit_NotReadyRefusesSwipeAndLutRead :
    State.reset.status.fault = false ∧ State.reset.status.ready = false ∧
    commandReady State.reset = false ∧
    (ready b0 4 b0Left).status.fault = false ∧ (ready b0 4 b0Left).status.ready = true ∧
    commandReady { ready b0 4 b0Left with port := .busy 0x00001203 0 0 false } = false := by decide

/-- The three columns of R227's table. -/
theorem wit_CommandsAllowedByReadyAndFault :
    State.reset.status.fault = false ∧ commandReady State.reset = false ∧ blocked.status.fault = false ∧
    commandReady blocked = true ∧ faulted.status.fault = true ∧ faulted.status.ready = true ∧
    WellFormed (.swipe .left 1 0) ∧ ∃ t, step faulted = .next t :=
  ⟨rfl, rfl, rfl, rfl, rfl, rfl, rfl, ⟨_, rfl⟩⟩

theorem wit_QueriesHaveNoSideEffects :
    (∃ t, exec .readBoard faulted = .next t) ∧ (∃ t, exec .score State.reset = .next t) ∧
    (∃ t, exec (.encode 4) State.reset = .next t) ∧ (∃ t, exec (.decode 15) State.reset = .next t) ∧
    (∃ t, exec (.lutRead .left 0x21) (built b0 4) = .next t) ∧
    commandReady (built b0 4) = (built b0 4).status.ready ∧ (∃ t, exec .readStatus faulted = .next t) ∧
    ∃ t, exec .nop faulted = .next t :=
  ⟨⟨_, rfl⟩, ⟨_, rfl⟩, ⟨_, rfl⟩, ⟨_, rfl⟩, ⟨_, rfl⟩, rfl, ⟨_, rfl⟩, ⟨_, rfl⟩⟩

/-- A FAULT that changes, an error and an OK answer of both commands that write the move report. -/
theorem wit_StatusFieldsHaveTheirWriters :
    (after (exec (.swipe .left 2 1) (ready b0 4 []))).map
      (fun t => (t.status.fault, t.status.lastErr)) = some (true, .lutMiss) ∧
    (after (exec (.swipe .left 2 1) (ready b0 4 b0Left))).map (fun t => t.status.lastErr) = some .ok ∧
    (after (exec (.loadBoard b0) State.reset)).map (fun t => t.status.lastErr) = some .ok ∧
    (after (exec .nop faulted)).map (fun t => t.status.lastErr) = some .lutMiss ∧
    (after (exec .readStatus faulted)).map (fun t => t.status.lastErr) = some .lutMiss := by decide

theorem wit_BoardHighestAndTablesHaveTheirWriters :
    (after (exec (.swipe .left 2 1) (ready b0 4 b0Left))).map (fun t => decide (t.board = b0)) = some false ∧
    (after (exec (.loadBoard b0) State.reset)).map (fun t => t.board) = some b0 := by decide

/-- Two machines with different histories. -/
theorem wit_CommandsSeeOnlyTheVisibleState :
    TablesBuilt (built b0 4) ∧
    TablesBuilt { built b0 4 with lut := buildWrites 1 [] 0 Config.lutSpace, epoch := 1 } ∧
    commandReady (built b0 4) =
      commandReady { built b0 4 with lut := buildWrites 1 [] 0 Config.lutSpace, epoch := 1 } ∧
    ∃ t t', exec .readBoard (built b0 4) = .next t ∧
      exec .readBoard { built b0 4 with lut := buildWrites 1 [] 0 Config.lutSpace, epoch := 1 } = .next t' :=
  ⟨built_tables _ _, tablesBuilt_of_lut (by simp only), by simp only [commandReady, built, ready], ⟨_, _, rfl, rfl⟩⟩

theorem wit_RestrideUndoesUnrestride : ((4 : Nat) = 1 ∨ (4 : Nat) = 4) ∧ (3 : Nat) < 4 := by decide

theorem wit_MergeAddsFaces :
    (1 : Code) ≠ 0 ∧ (2 : Code) ≠ 0 ∧ mergeable 2 1 = true ∧ mergeable 14 14 = true ∧
    mergeable 15 15 = false := by decide

/-- Each case at a boundary: a gap first and last, a merge first and last, and no point at all. -/
theorem wit_SlideActsAtTheFirstPoint :
    nib (0x1110 : Line) 0 = 0 ∧
    (nib (0x1011 : Line) 2 = 0 ∧ ∀ k, 1 ≤ k → k < 3 → nib (0x1011 : Line) (k - 1) ≠ 0 ∧
      ¬ CanMergeAt 0x1011 k) ∧
    CanMergeAt 0x1121 1 ∧
    (CanMergeAt 0x2111 3 ∧ ∀ k, 1 ≤ k → k < 3 → nib (0x2111 : Line) (k - 1) ≠ 0 ∧
      ¬ CanMergeAt 0x2111 k) ∧
    ∀ i, 1 ≤ i → i ≤ 3 → nib (0x1111 : Line) (i - 1) ≠ 0 ∧ ¬ CanMergeAt 0x1111 i := by
  refine ⟨by decide, ⟨by decide, ?_⟩, by unfold CanMergeAt; decide, ⟨by unfold CanMergeAt; decide, ?_⟩, ?_⟩
  all_goals
    intro k h1 h2
    unfold CanMergeAt
    interval_cases k <;> decide

theorem wit_SlideLawsHold : slide 0x0021 ≠ 0x0021 ∧ (0x00FF : Line).toNat < 0x0100 := by decide

end Sys2Proof.Tests
end

section
/-! The reset edge (R45, R250): what a read-out of the state gives after it, and the obligation about it. -/

namespace Sys2Proof.Machine

/-- An edge with `rst` = 1 is the reset edge, whatever the port and the builder were doing (R250, R252). -/
theorem step_of_rst {s : State} (hr : (nextPins s).rst = true) : step s = .next (resetEdge (dropPins s)) :=
  if_pos hr

/-- An IDLE port presents no response (R81). -/
theorem response_of_idle {s : State} (h : s.port = .idle) : response s = none := by
  simp [response, h]

/-- The STATUS word is a function of HIGHEST and the STATUS fields alone (R36). -/
theorem statusWord_congr {s t : State} (hh : t.highest = s.highest) (hs : t.status = s.status) :
    t.statusWord = s.statusWord := by
  simp [State.statusWord, hh, hs]

theorem statusWord_reset : State.reset.statusWord = 0 := by decide

@[simp] theorem statusWord_resetEdge (s : State) : (resetEdge s).statusWord = 0 :=
  (statusWord_congr rfl rfl).trans statusWord_reset

@[simp] theorem response_resetEdge (s : State) : response (resetEdge s) = none :=
  response_of_idle (resetEdge_port s)

/-- No LUT entry is valid after a reset edge (R45). -/
@[simp] theorem lutRead_resetEdge_valid (s : State) (d : Dir) (n : Line) :
    (lutRead (resetEdge s) d n).1 = false := by
  rw [lutRead_of_lookup_none (by simp only [resetEdge_lut, Memory.lookup])]

/-- Settles O12: the step is the reset edge, and each read-out of the state it leaves has its reset value. -/
theorem resetEdgeGivesResetValues : Obligations.ResetEdgeGivesResetValues := by
  intro s hr
  refine ⟨resetEdge (dropPins s), step_of_rst hr, ?_⟩
  simp [Status.reset, Dir.toBits]

end Sys2Proof.Machine
end

section
/-! Reads of the state (R69): what the five queries may write, what their answer depends on, and the obligation
about them. -/

namespace Sys2Proof.Machine

/-- An error other than LUT_MISS writes LAST_ERR and the response alone (R223, R226). -/
theorem raise_of_ne_lutMiss {e : ErrCode} (he : e ≠ .lutMiss) (s : State) :
    raise e s = respond e 0 (setLastErr e s) := by
  simp [raise, setLastErr, faultAfter_eq, he]

/-- No query raises LUT_MISS: it is SWIPE's error (R192). -/
theorem ne_lutMiss_of_query_raises {i : Instr} {s : State} {e : ErrCode} (hq : isQuery i = true)
    (h : RaisesFor i s e) : e ≠ .lutMiss := by
  rintro rfl
  obtain ⟨he, -⟩ | ⟨he, -⟩ | ⟨he, -⟩ | ⟨he, -⟩ | ⟨-, -, -, d, tl, r, rfl, -⟩ := h
  case inr.inr.inr.inr => cases hq
  all_goals cases he

/-- A query, completed or refused, writes LAST_ERR and the response alone (R69). -/
theorem exec_query_writes {i : Instr} {s t : State} (hq : isQuery i = true) (h : exec i s = .next t) :
    ∃ e x, t = respond e x (setLastErr e s) := by
  obtain ⟨e, he, rfl⟩ | ⟨-, x, rfl⟩ | ⟨rfl | rfl, -⟩ | ⟨_, rfl, -⟩ | ⟨_, _, _, rfl, -⟩ | ⟨_, _, _, rfl, -⟩ :=
    exec_cases h
  · exact ⟨e, 0, raise_of_ne_lutMiss (ne_lutMiss_of_query_raises hq he) s⟩
  · exact ⟨.ok, x, rfl⟩
  all_goals cases hq

/-- A query's outcome does not depend on LAST_ERR, nor on the port but for the READY that LUT_READ goes by:
what it would see of them it overwrites. -/
theorem exec_query_setLastErr_port {i : Instr} (hq : isQuery i = true) (e : ErrCode) (p : Port) (s : State)
    (hr : (∀ d n, i ≠ .lutRead d n) ∨ commandReady { s with port := p } = commandReady s) :
    exec i { setLastErr e s with port := p } = exec i s := by
  cases i with
  | readBoard => rfl
  | score => rfl
  | encode f => rfl
  | decode c => rfl
  | lutRead d n =>
    have hr : commandReady { setLastErr e s with port := p } = commandReady s :=
      hr.resolve_left fun hne => hne d n rfl
    simp only [exec, execLutRead, hr]
    rfl
  | _ => cases hq

/-- Settles O51: a query leaves all but LAST_ERR and the response, and its outcome does not depend on those, so
that it answers the same again. -/
theorem queriesHaveNoSideEffects : Obligations.QueriesHaveNoSideEffects := by
  refine ⟨fun s t i hi h => ?_, fun s t i hi h => ?_⟩
  · have hq : isQuery i = true := by
      obtain rfl | rfl | ⟨_, rfl⟩ | ⟨_, rfl⟩ | ⟨_, _, rfl⟩ := hi <;> rfl
    obtain ⟨e, x, rfl⟩ := exec_query_writes hq h
    refine ⟨rfl, ?held, fun hr => ?anew⟩
    case held => exact (exec_query_setLastErr_port hq e s.port s (.inr rfl)).trans h
    case anew =>
      have hr : (∀ d n, i ≠ .lutRead d n) ∨ commandReady { s with port := .idle } = commandReady s :=
        hr.imp_right fun hc => (commandReady_of_idle rfl).trans hc.symm
      exact (exec_query_setLastErr_port hq e .idle s hr).trans h
  · obtain rfl | rfl := hi <;> cases h <;> rfl

end Sys2Proof.Machine
end

section
/-! The opcode map (R87, R89): which words decode to which command, which rows accept a word, what a word that is
not legal does, and the obligations about them. -/

namespace Sys2Proof

open Machine

/-- The DIR codes and the directions correspond one to one (R86). -/
theorem Dir.ofBits_eq_iff {b : BitVec 2} {d : Dir} : Dir.ofBits b = d ↔ d.toBits = b :=
  ⟨fun h => h ▸ (toBits_ofBits b), fun h => h ▸ ofBits_toBits d⟩

/-- The opcode of an instruction's row (R87). -/
def Instr.opcode : Instr → BitVec 4
  | .nop => 0x0
  | .loadBoard _ => 0x1
  | .readBoard => 0x2
  | .swipe _ _ _ => 0x3
  | .score => 0x4
  | .encode _ => 0x5
  | .decode _ => 0x6
  | .readStatus => 0x7
  | .lutRead _ _ => 0x8
  | .reserved9 _ => 0x9
  | .reservedA _ => 0xA
  | .reservedB _ => 0xB
  | .reservedC _ => 0xC
  | .reservedD _ => 0xD
  | .reservedE _ => 0xE
  | .reservedF _ => 0xF

/-- An instruction's operands are the fields of the word and the data (R82, R84, R91). -/
def Instr.OperandsFrom (w : CmdWord) (x : Data) : Instr → Prop
  | .loadBoard b => b = x
  | .swipe d t r => d.toBits = dirField w ∧ t = tileField w ∧ r = selField w
  | .encode f => f = immField w
  | .decode c => c = tileField w
  | .lutRead d n => d.toBits = dirField w ∧ n = immField w
  | .reserved9 r | .reservedA r | .reservedB r | .reservedC r | .reservedD r | .reservedE r
  | .reservedF r => r = restField w
  | .nop | .readBoard | .score | .readStatus => True

/-- The word belongs to the row of its own opcode (R87). -/
def RowMatches (w : CmdWord) : Prop := w &&& maskOf (opField w) = patternOf (opField w)

/-! ### Opcodes and masks -/

/-- The legal commands are those of opcodes 0 to 8 (R89). -/
theorem wellFormed_eq_opcode_le (i : Instr) : i.wellFormed = decide (i.opcode.toNat ≤ 8) := by
  cases i <;> rfl

theorem opField_and (u v : CmdWord) : opField (u &&& v) = opField u &&& opField v :=
  BitVec.extractLsb'_and

@[simp] theorem opField_maskOf (op : BitVec 4) : opField (maskOf op) = 0xF := by
  revert op; decide

@[simp] theorem opField_patternOf (op : BitVec 4) : opField (patternOf op) = op := by
  revert op; decide

/-- Every row's mask keeps OP, so a word matches the row of its own opcode or none (R87). -/
theorem and_maskOf_eq_patternOf_iff {w : CmdWord} {op : BitVec 4} :
    w &&& maskOf op = patternOf op ↔ opField w = op ∧ RowMatches w := by
  constructor
  · intro h
    have hop : opField w = op := by
      have hf := congrArg opField h
      rwa [opField_and, opField_maskOf, opField_patternOf, code_and_ones] at hf
    exact ⟨hop, by rwa [RowMatches, hop]⟩
  · rintro ⟨rfl, h⟩
    exact h

/-! ### The decoder -/

/-- The decoder reads the row that OP selects (R82). -/
@[simp] theorem opcode_decodeFields (w : CmdWord) (x : Data) : (decodeFields w x).opcode = opField w := by
  have hlt := (opField w).isLt
  apply BitVec.eq_of_toNat_eq
  unfold decodeFields
  interval_cases (opField w).toNat <;> rfl

/-- In the row of its own opcode an instruction is what the decoder reads exactly when its operands are the
word's. -/
theorem decodeFields_eq_iff {w : CmdWord} {x : Data} {i : Instr} (h : opField w = i.opcode) :
    decodeFields w x = i ↔ i.OperandsFrom w x := by
  cases i with
  | swipe d t r =>
    simp [decodeFields, h, Instr.opcode, Instr.OperandsFrom, Dir.ofBits_eq_iff, eq_comm (b := t),
      eq_comm (b := r)]
  | lutRead d n =>
    simp [decodeFields, h, Instr.opcode, Instr.OperandsFrom, Dir.ofBits_eq_iff, eq_comm (b := n)]
  | _ => simp [decodeFields, h, Instr.opcode, Instr.OperandsFrom, eq_comm]

theorem decode_eq_ok_iff {w : CmdWord} {x : Data} {i : Instr} :
    decode w x = .ok i ↔ RowMatches w ∧ decodeFields w x = i := by
  unfold decode RowMatches
  split <;> simp_all

/-- R87 for every row at once: the masked bits are the pattern and the operands are the word's fields. -/
theorem decode_eq_ok_iff_mask {w : CmdWord} {x : Data} (i : Instr) :
    decode w x = .ok i ↔ w &&& maskOf i.opcode = patternOf i.opcode ∧ i.OperandsFrom w x := by
  rw [decode_eq_ok_iff, and_maskOf_eq_patternOf_iff]
  constructor
  · rintro ⟨hm, hi⟩
    have hop : opField w = i.opcode := by rw [← hi, opcode_decodeFields]
    exact ⟨⟨hop, hm⟩, (decodeFields_eq_iff hop).mp hi⟩
  · rintro ⟨⟨hop, hm⟩, hi⟩
    exact ⟨hm, (decodeFields_eq_iff hop).mpr hi⟩

/-- Settles O2: each of the 16 rows is a case of the one equivalence. -/
theorem opcodeMapDecodesByMaskAndMatch : Obligations.OpcodeMapDecodesByMaskAndMatch := by
  intro w x
  have row (i : Instr) := decode_eq_ok_iff_mask (w := w) (x := x) i
  have bare {i : Instr} (hi : i.OperandsFrom w x) :
      decode w x = .ok i ↔ w &&& maskOf i.opcode = patternOf i.opcode := by
    rw [row, and_iff_left hi]
  exact ⟨bare trivial, fun _ => row _, bare trivial, fun _ _ _ => row _, bare trivial, fun _ => row _,
    fun _ => row _, bare trivial, fun _ _ => row _, fun _ => row _, fun _ => row _, fun _ => row _,
    fun _ => row _, fun _ => row _, fun _ => row _, fun _ => row _⟩

/-! ### Legal words -/

theorem legalWord_iff {w : CmdWord} : legalWord w = true ↔ (opField w).toNat ≤ 8 ∧ RowMatches w := by
  simp [legalWord, RowMatches]

/-- A word that decodes is legal exactly when what it decodes to is a legal command (R89). -/
theorem legalWord_eq_wellFormed {w : CmdWord} {x : Data} {i : Instr} (h : decode w x = .ok i) :
    legalWord w = i.wellFormed := by
  obtain ⟨hm, rfl⟩ := decode_eq_ok_iff.mp h
  rw [wellFormed_eq_opcode_le, opcode_decodeFields, Bool.eq_iff_iff, legalWord_iff, decide_eq_true_eq,
    and_iff_left hm]

theorem legalWord_iff_decode {w : CmdWord} :
    legalWord w = true ↔ ∀ x, ∃ i, WellFormed i ∧ decode w x = .ok i := by
  constructor
  · intro h x
    have hd : decode w x = .ok (decodeFields w x) := decode_eq_ok_iff.mpr ⟨(legalWord_iff.mp h).2, rfl⟩
    exact ⟨_, (legalWord_eq_wellFormed hd).symm.trans h, hd⟩
  · intro h
    obtain ⟨i, hi, hd⟩ := h 0
    exact (legalWord_eq_wellFormed hd).trans hi

/-! ### The rows that accept a word -/

/-- Each row of the map holds the mask and the pattern of its opcode, which its pattern shows (R87). -/
theorem mask_pattern_of_mem_opcodeRows : ∀ r ∈ opcodeRows,
    r.mask = maskOf (opField r.pattern) ∧ r.pattern = patternOf (opField r.pattern) := by decide

theorem accepts_iff {r : OpcodeRow} (hr : r ∈ opcodeRows) {w : CmdWord} :
    r.accepts w = true ↔ opField w = opField r.pattern ∧ RowMatches w := by
  obtain ⟨hm, hp⟩ := mask_pattern_of_mem_opcodeRows r hr
  rw [← and_maskOf_eq_patternOf_iff, ← hm, ← hp, OpcodeRow.accepts, beq_iff_eq]

/-- The rows of some opcode. -/
def rowsOf (rows : List OpcodeRow) (op : BitVec 4) : List OpcodeRow :=
  rows.filter (fun r => op == opField r.pattern)

theorem filter_accepts_of_rowMatches {rows : List OpcodeRow} (hsub : ∀ r ∈ rows, r ∈ opcodeRows)
    {w : CmdWord} (h : RowMatches w) : rows.filter (fun r => r.accepts w) = rowsOf rows (opField w) :=
  List.filter_congr fun r hr => by
    rw [Bool.eq_iff_iff, accepts_iff (hsub r hr), and_iff_left h, beq_iff_eq]

theorem filter_accepts_of_not_rowMatches {rows : List OpcodeRow} (hsub : ∀ r ∈ rows, r ∈ opcodeRows)
    {w : CmdWord} (h : ¬ RowMatches w) : rows.filter (fun r => r.accepts w) = [] :=
  List.filter_eq_nil_iff.mpr fun r hr ha => h ((accepts_iff (hsub r hr)).mp ha).2

/-- One command row for each opcode up to 8, none for the others (R87). -/
theorem length_rowsOf_commandRows (op : BitVec 4) :
    (rowsOf commandRows op).length = if op.toNat ≤ 8 then 1 else 0 := by
  revert op; decide

/-- One row of the whole map for each opcode (R87). -/
theorem length_rowsOf_opcodeRows (op : BitVec 4) : (rowsOf opcodeRows op).length = 1 := by
  revert op; decide

theorem legalWord_iff_one_commandRow {w : CmdWord} :
    legalWord w = true ↔ (commandRows.filter (fun r => r.accepts w)).length = 1 := by
  have hsub : ∀ r ∈ commandRows, r ∈ opcodeRows := fun r hr => List.mem_append_left _ hr
  rw [legalWord_iff]
  by_cases h : RowMatches w
  · rw [filter_accepts_of_rowMatches hsub h, length_rowsOf_commandRows, and_iff_left h]
    split <;> simp_all
  · simp [filter_accepts_of_not_rowMatches hsub h, h]

/-- No word is accepted by two rows (R89). -/
theorem length_filter_accepts_opcodeRows_le (w : CmdWord) :
    (opcodeRows.filter (fun r => r.accepts w)).length ≤ 1 := by
  by_cases h : RowMatches w
  · rw [filter_accepts_of_rowMatches (fun _ hr => hr) h, length_rowsOf_opcodeRows]
  · simp [filter_accepts_of_not_rowMatches (fun _ hr => hr) h]

end Sys2Proof

namespace Sys2Proof.Machine

/-! ### Words that are not legal -/

/-- The meaning of a reserved row (R90, R222). -/
theorem exec_of_not_wellFormed {i : Instr} (h : i.wellFormed = false) (s : State) :
    exec i s = .next (raise .illegalCommand s) := by
  cases i with
  | reserved9 _ | reservedA _ | reservedB _ | reservedC _ | reservedD _ | reservedE _ | reservedF _ => rfl
  | _ => cases h

/-- A word that is not legal is refused, whether it decodes to a reserved row or to none (R89, R222). -/
theorem runCommand_of_not_legalWord {w : CmdWord} (h : legalWord w = false) (x : Data) (s : State) :
    runCommand w x s = .next (raise .illegalCommand s) := by
  cases hd : decode w x with
  | error e => exact runCommand_of_error hd s
  | ok i =>
    have hi : i.wellFormed = false := (legalWord_eq_wellFormed hd).symm.trans h
    rw [runCommand_of_decode hd, exec_of_not_wellFormed hi]

/-- Settles O3: a word matches the row of its own opcode or none, and that row is a command's when OP is at most
8. -/
theorem legalWordIffExactlyOneCommandRow : Obligations.LegalWordIffExactlyOneCommandRow := fun w =>
  ⟨legalWord_iff_one_commandRow, legalWord_iff, legalWord_iff_decode, runCommand_of_not_legalWord,
    length_filter_accepts_opcodeRows_le w⟩

/-! ### SWIPE with TILE = 0 -/

/-- The insertion multiplexer writes nothing for tile 0, the defensive case included (R85). -/
theorem insertTile_zero (d : Dir) (r : Sel) (c : Board) :
    (insertTile d 0 r c).board = c ∧ (insertTile d 0 r c).inserted = false := by
  obtain ⟨-, h⟩ | ⟨-, -, h⟩ | ⟨-, h0, -⟩ := insertTile_cases d 0 r c
  · rw [h]; exact ⟨rfl, rfl⟩
  · rw [h]; exact ⟨rfl, rfl⟩
  · exact absurd rfl h0

/-- A SWIPE that meets no error plays the move: a no-op or a commit of the candidate board (R190). -/
theorem exec_swipe_of_no_error {d : Dir} {s : State} (t : Code) (r : Sel) (hf : s.status.fault = false)
    (hr : commandReady s = true) (hv : lookupsValid d s = true) :
    exec (.swipe d t r) s =
      .next (if candidate d s = s.board then swipeNoop d s else swipeCommit d t r (candidate d s) s) := by
  obtain ⟨hf', -⟩ | ⟨-, hr', -⟩ | ⟨-, -, hv', -⟩ | ⟨-, -, -, hc, he⟩ | ⟨-, -, -, hc, he⟩ :=
    execSwipe_cases d t r s
  · cases hf.symm.trans hf'
  · cases hr.symm.trans hr'
  · cases hv.symm.trans hv'
  · rw [if_pos hc]; exact he
  · rw [if_neg hc]; exact he

/-- Settles O32: a no-op leaves the board, which is then the candidate board, and a committed move inserts no
tile. -/
theorem swipeWithTileZeroInsertsNothing : Obligations.SwipeWithTileZeroInsertsNothing := by
  refine ⟨fun w x d r h => legalWord_eq_wellFormed h,
    fun s d r hf hr hv => ⟨_, exec_swipe_of_no_error 0 r hf hr hv, ?_⟩⟩
  split
  · next hc => exact ⟨hc.symm, rfl, congrArg (Port.respond .ok) hc.symm⟩
  · obtain ⟨hb, hi⟩ := insertTile_zero d r (candidate d s)
    exact ⟨hb, hi, congrArg (Port.respond .ok) hb⟩

end Sys2Proof.Machine
end

section
/-! The tile codec (R110-R117): the two functions as inverses of each other, what ENCODE and DECODE answer, and the
obligations about them. -/

namespace Sys2Proof.Machine

/-! ### The functions -/

/-- R110 on numbers: the 16-bit result never overflows. -/
theorem toNat_faceOf (n : Code) :
    (faceOf n).toNat = if n.toNat ≤ 2 then n.toNat else 3 * 2 ^ (n.toNat - 3) := by
  revert n; decide

/-- The face of the code `k + 3` (R110). -/
theorem faceOf_ofNat_add_three {k : Nat} (hk : k ≤ 12) :
    faceOf (BitVec.ofNat 4 (k + 3)) = BitVec.ofNat 16 (3 * 2 ^ k) := by
  revert k; decide

/-- `code_of` is defined by one of the two lines of R113. -/
theorem codeOf_cases {v : Face} {c : Code} (h : codeOf v = some c) :
    (v.toNat ≤ 2 ∧ c = v.setWidth 4) ∨ ∃ k ≤ 12, v.toNat = 3 * 2 ^ k ∧ c = BitVec.ofNat 4 (k + 3) := by
  unfold codeOf at h
  split at h
  · next hv => exact .inl ⟨hv, (Option.some.inj h).symm⟩
  · obtain ⟨k, hd, rfl⟩ := Option.map_eq_some_iff.mp h
    have hk : k < 13 := List.mem_range.mp (List.mem_of_find?_eq_some hd)
    have hv : v.toNat = 3 <<< k := by simpa using List.find?_some hd
    exact .inr ⟨k, by omega, by rw [hv, Nat.shiftLeft_eq], rfl⟩

theorem codeOf_faceOf (n : Code) : codeOf (faceOf n) = some n := by
  revert n; decide

theorem faceOf_of_codeOf {v : Face} {c : Code} (h : codeOf v = some c) : faceOf c = v := by
  obtain ⟨hv, rfl⟩ | ⟨k, hk, hv, rfl⟩ := codeOf_cases h
  · have hc : (v.setWidth 4).toNat = v.toNat := by rw [BitVec.toNat_setWidth]; omega
    exact BitVec.eq_of_toNat_eq (by rw [toNat_faceOf, hc, if_pos hv])
  · rw [faceOf_ofNat_add_three hk, ← hv, BitVec.ofNat_toNat, BitVec.setWidth_eq]

/-- R114, both laws: `code_of` is the inverse of `face_of`, so a face has a code exactly when it is that code's
face. -/
theorem codeOf_eq_some_iff {v : Face} {c : Code} : codeOf v = some c ↔ faceOf c = v :=
  ⟨faceOf_of_codeOf, fun h => h ▸ codeOf_faceOf c⟩

theorem faceOf_lt_faceOf {n m : Code} (h : n.toNat < m.toNat) : (faceOf n).toNat < (faceOf m).toNat := by
  rw [toNat_faceOf, toNat_faceOf]
  split_ifs with hn hm hm
  · exact h
  · have hpow : 1 ≤ 2 ^ (m.toNat - 3) := Nat.one_le_two_pow
    omega
  · omega
  · have hpow : 2 ^ (n.toNat - 3) < 2 ^ (m.toNat - 3) := Nat.pow_lt_pow_right (by decide) (by omega)
    omega

/-- Settles O40: the two lines of R113 are the inverse of `face_of` on its values, and no other value is one. -/
theorem codeOfIsDefinedExactlyOnFaces : Obligations.CodeOfIsDefinedExactlyOnFaces := by
  refine ⟨fun v hv => if_pos hv, fun k hk => codeOf_eq_some_iff.mpr (faceOf_ofNat_add_three hk),
    fun v hv hne => ?_, by decide, by decide⟩
  refine Option.eq_none_iff_forall_ne_some.mpr fun c hc => ?_
  obtain ⟨hle, -⟩ | ⟨k, hk, hv', -⟩ := codeOf_cases hc
  · omega
  · exact hne k hk hv'

/-- Settles O41: the inverse laws and the order of the faces. -/
theorem codecIsInvertibleAndIncreasing : Obligations.CodecIsInvertibleAndIncreasing :=
  ⟨fun _ _ => faceOf_of_codeOf, codeOf_faceOf, fun _ _ => faceOf_lt_faceOf⟩

/-! ### Stray bits and FAULT -/

/-- A word outside its opcode's row is not legal, so that it is refused (R89, R222). -/
theorem refusesStrayBits_maskOf (op : BitVec 4) : RefusesStrayBits op (maskOf op) := by
  intro w x s hop hne
  have hrow : ¬ RowMatches w := fun hm => hne (and_maskOf_eq_patternOf_iff.mpr ⟨hop, hm⟩)
  have hleg : legalWord w = false := Bool.eq_false_iff.mpr fun hl => hrow (legalWord_iff.mp hl).2
  exact runCommand_of_not_legalWord hleg x s

/-- The commands that FAULT = 1 refuses (R227). -/
def refusedInFault : Instr → Bool
  | .loadBoard _ | .swipe _ _ _ | .score | .encode _ | .decode _ => true
  | _ => false

/-- FAULTED comes before every other check of a legal command (R225). -/
theorem exec_of_fault {i : Instr} {s : State} (hi : refusedInFault i = true) (hf : s.status.fault = true) :
    exec i s = .next (raise .faulted s) := by
  cases i with
  | loadBoard _ | swipe _ _ _ | score | encode _ | decode _ => exact if_pos hf
  | _ => cases hi

/-! ### ENCODE and DECODE -/

theorem exec_encode_of_some {f : Face} {c : Code} {s : State} (hf : s.status.fault = false)
    (hc : codeOf f = some c) : exec (.encode f) s = .next (complete (c.setWidth 64) s) := by
  simp [exec, execEncode, hf, hc]

theorem exec_encode_of_none {f : Face} {s : State} (hf : s.status.fault = false) (hc : codeOf f = none) :
    exec (.encode f) s = .next (raise .domain s) := by
  simp [exec, execEncode, hf, hc]

theorem exec_decode_of_no_fault {s : State} (c : Code) (hf : s.status.fault = false) :
    exec (.decode c) s = .next (complete ((faceOf c).setWidth 64) s) := by
  simp [exec, execDecode, hf]

/-- Settles O42: the row of ENCODE, its three ends, and the codes of the listed faces. -/
theorem encodeAnswersCodeOrDomain : Obligations.EncodeAnswersCodeOrDomain :=
  ⟨fun _ _ f => decode_eq_ok_iff_mask (.encode f), fun _ _ _ => exec_encode_of_some,
    fun _ _ => exec_encode_of_none, fun _ _ => exec_of_fault rfl, refusesStrayBits_maskOf 0x5, rfl, rfl,
    by decide⟩

/-- Settles O43: the row of DECODE, its two ends, and the table of R111. -/
theorem decodeAnswersTheFace : Obligations.DecodeAnswersTheFace := by
  refine ⟨fun _ _ c => decode_eq_ok_iff_mask (.decode c), fun s c hf => ?_, fun _ _ => exec_of_fault rfl,
    refusesStrayBits_maskOf 0x6, by decide, by decide, rfl, by decide⟩
  rw [← toNat_faceOf, BitVec.ofNat_toNat]
  exact exec_decode_of_no_fault c hf

end Sys2Proof.Machine
end

section
/-! The line datapath (R131-R142): gather and scatter, the canonical order, the scan of `slide`, and the obligations
about them. -/

namespace Sys2Proof.Machine

/-! ### Gather and scatter -/

/-- A line spread at a stride has its own nibbles at the stride positions of a board (R132). -/
theorem nib_unrestride_mul (n : Line) {k i : Nat} (hk : k ≠ 0) (hlt : k * i < 16) (hi : i < 4) :
    nib (unrestride n k) (k * i) = nib n i := by
  simp only [unrestride, nib_or, nib_spread _ _ _ _ hlt, Nat.mul_right_inj hk]
  interval_cases i <;> simp

theorem restride_unrestride (n : Line) {k : Nat} (hk : k = 1 ∨ k = 4) :
    restride (unrestride n k) k = n := by
  refine line_ext fun i hi => ?_
  have hlt : k * i < 16 := by obtain rfl | rfl := hk <;> omega
  rw [nib_restride _ _ _ hi, nib_unrestride_mul n (by omega) hlt hi]

/-- Settles O55: each nibble of the spread line is gathered again. -/
theorem restrideUndoesUnrestride : Obligations.RestrideUndoesUnrestride := by
  refine ⟨fun x k i _ hi => nib_restride x k i hi, fun n k hk => ⟨restride_unrestride n hk, ?_⟩⟩
  simp [unrestride, spreadNib, List.range_succ]

/-! ### Reversal and the canonical line -/

theorem nib_rev (l : Line) {i : Nat} (hi : i < 4) : nib (rev l) i = nib l (3 - i) := by
  rw [rev, nib_ofTiles]
  interval_cases i <;> rfl

@[simp] theorem rev_rev (l : Line) : rev (rev l) = l := by
  refine line_ext fun i hi => ?_
  rw [nib_rev _ hi, nib_rev _ (by omega), show 3 - (3 - i) = i by omega]

@[simp] theorem canon_canon (n : Line) (d : Dir) : canon (canon n d) d = n := by
  cases d with
  | left | up => rfl
  | right | down => exact rev_rev n

/-- Settles O57: nibble 3 of a canonical line is an end of the natural line, and that end is the trailing-edge
cell. -/
theorem canonPutsTheTrailingCellLast : Obligations.CanonPutsTheTrailingCellLast := by
  refine ⟨fun l => ⟨fun i => nib_rev l, rev_rev l⟩, fun n => ⟨rfl, rfl, rfl, rfl⟩, canon_canon,
    fun b d j hj => ?_⟩
  rw [edgeCell_eq]
  cases d with
  | left | up => exact nib_line b _ hj (by decide)
  | right | down => exact (nib_rev _ (by decide)).trans (nib_line b _ hj (by decide))

/-! ### The scan of `slide` -/

/-- The scan of R142 finds nothing to do in front of position `m`: each cell holds a tile that the next one does
not merge with. -/
def BlockedBefore (ts : List Code) (m : Nat) : Prop :=
  ∀ k < m, ts.getD k 0 ≠ 0 ∧ mergeable (ts.getD k 0) (ts.getD (k + 1) 0) = false

theorem blockedBefore_cons_succ {a b : Code} {ts : List Code} {m : Nat} :
    BlockedBefore (a :: b :: ts) (m + 1) ↔ (a ≠ 0 ∧ mergeable a b = false) ∧ BlockedBefore (b :: ts) m :=
  Nat.forall_lt_succ_left

theorem slideTiles_of_gap (b : Code) (behind : List Code) :
    slideTiles (0 :: b :: behind) = b :: behind ++ [0] := rfl

theorem ne_zero_of_mergeable {a b : Code} (h : mergeable a b = true) : a ≠ 0 ∧ b ≠ 0 := by
  constructor
  · rintro rfl; cases (mergeable_zero_left b).symm.trans h
  · rintro rfl; cases (mergeable_zero_right a).symm.trans h

theorem slideTiles_of_mergeable {a b : Code} (h : mergeable a b = true) (behind : List Code) :
    slideTiles (a :: b :: behind) = merged a b :: (behind ++ [0]) := by
  obtain ⟨ha, hb⟩ := ne_zero_of_mergeable h
  simp only [slideTiles, beq_iff_eq, bne_iff_ne, Bool.and_eq_true]
  rw [if_neg ha, if_pos ⟨hb, h⟩]

theorem slideTiles_of_blocked {a b : Code} (ha : a ≠ 0) (h : mergeable a b = false) (behind : List Code) :
    slideTiles (a :: b :: behind) = a :: slideTiles (b :: behind) := by
  simp only [slideTiles, beq_iff_eq, h, Bool.and_false, Bool.false_eq_true, if_false]
  rw [if_neg ha]

/-- The scan leaves what is in front of position `m` and goes on from there. -/
theorem slideTiles_of_blockedBefore {ts : List Code} {m : Nat} (hm : m < ts.length) (h : BlockedBefore ts m) :
    slideTiles ts = ts.take m ++ slideTiles (ts.drop m) := by
  induction m generalizing ts with
  | zero => rfl
  | succ m ih =>
    match ts with
    | a :: b :: behind =>
      obtain ⟨⟨ha, hab⟩, hrest⟩ := blockedBefore_cons_succ.mp h
      rw [slideTiles_of_blocked ha hab, ih (by simpa using hm) hrest]
      rfl

/-! ### The scan on a line -/

theorem nib_lineOfTiles (ts : List Code) {p : Nat} (hp : p < 4) : nib (lineOfTiles ts) p = ts.getD p 0 := by
  rw [lineOfTiles, nib_ofTiles]
  interval_cases p <;> rfl

theorem getD_tiles (l : Line) (p : Nat) : (tiles l).getD p 0 = nib l p := by
  rw [tiles, ← nib_ofTiles, ofTiles_nibs]

theorem getD_append_zero (ts : List Code) (p : Nat) : (ts ++ [0]).getD p 0 = ts.getD p 0 := by
  obtain h | h := lt_or_ge p ts.length
  · exact List.getD_append _ _ _ _ h
  · rw [List.getD_append_right _ _ _ _ h, List.getD_eq_default _ _ h, List.getD_eq_getElem?_getD,
      List.getElem?_getD_singleton_default_eq]

/-- What stands from position `m` on, with 0 in the cell that a move frees (R142). -/
theorem getD_drop_tiles_append_zero (l : Line) (m p : Nat) :
    ((tiles l).drop m ++ [0]).getD p 0 = nib l (m + p) := by
  rw [getD_append_zero, ← getD_tiles]
  simp only [List.getD_eq_getElem?_getD, List.getElem?_drop]

theorem canMergeAt_succ_iff {l : Line} {m : Nat} :
    CanMergeAt l (m + 1) ↔ mergeable (nib l m) (nib l (m + 1)) = true :=
  ⟨fun ⟨_, _, h⟩ => h, fun h => ⟨(ne_zero_of_mergeable h).1, (ne_zero_of_mergeable h).2, h⟩⟩

theorem blockedBefore_tiles_iff {l : Line} {m : Nat} :
    BlockedBefore (tiles l) m ↔ ∀ k, 1 ≤ k → k < m + 1 → nib l (k - 1) ≠ 0 ∧ ¬ CanMergeAt l k := by
  simp only [BlockedBefore, getD_tiles, ← Bool.not_eq_true, ← canMergeAt_succ_iff]
  constructor
  · intro h k h1 hk
    obtain ⟨k, rfl⟩ := Nat.exists_eq_add_of_le' h1
    exact h k (by omega)
  · intro h k hk
    exact h (k + 1) (by omega) (by omega)

/-- A cell of the line after the scan, in front of position `m` and from there on. -/
theorem nib_slide_of_blockedBefore {l : Line} {m p : Nat} (hm : m < 4) (hp : p < 4)
    (h : BlockedBefore (tiles l) m) :
    nib (slide l) p = if p < m then nib l p else (slideTiles ((tiles l).drop m)).getD (p - m) 0 := by
  have hlen : ((tiles l).take m).length = m := List.length_take_of_le (Nat.le_of_lt hm)
  rw [slide, nib_lineOfTiles _ hp, slideTiles_of_blockedBefore hm h]
  split
  · next hlt =>
    rw [List.getD_append _ _ _ _ (by omega), ← getD_tiles]
    simp only [List.getD_eq_getElem?_getD, List.getElem?_take_of_lt hlt]
  · rw [List.getD_append_right _ _ _ _ (by omega), hlen]

theorem drop_tiles (l : Line) {m : Nat} (hm : m < 4) :
    (tiles l).drop m = nib l m :: (tiles l).drop (m + 1) := by
  interval_cases m <;> rfl

/-- At an empty cell everything behind moves one cell (R142). -/
theorem nib_slide_of_gap {l : Line} {m p : Nat} (hm : m < 3) (hp : p < 4) (h : BlockedBefore (tiles l) m)
    (hgap : nib l m = 0) : nib (slide l) p = if p < m then nib l p else nib l (p + 1) := by
  have hscan : slideTiles ((tiles l).drop m) = (tiles l).drop (m + 1) ++ [0] := by
    rw [drop_tiles l (m := m) (by omega), drop_tiles l (m := m + 1) (by omega), hgap, slideTiles_of_gap]
  rw [nib_slide_of_blockedBefore (by omega) hp h, hscan, getD_drop_tiles_append_zero]
  split
  · rfl
  · rw [show m + 1 + (p - m) = p + 1 by omega]

/-- At a pair that merges the merged tile stands in front, and everything behind the pair moves one cell
(R142). -/
theorem nib_slide_of_merge {l : Line} {m p : Nat} (hm : m < 3) (hp : p < 4) (h : BlockedBefore (tiles l) m)
    (hmerge : mergeable (nib l m) (nib l (m + 1)) = true) :
    nib (slide l) p =
      if p < m then nib l p else if p = m then merged (nib l m) (nib l (m + 1)) else nib l (p + 1) := by
  rw [nib_slide_of_blockedBefore (by omega) hp h, drop_tiles l (m := m) (by omega),
    drop_tiles l (m := m + 1) (by omega), slideTiles_of_mergeable hmerge]
  split
  · rfl
  · obtain rfl | hlt := Nat.eq_or_lt_of_not_lt ‹_›
    · simp
    · obtain ⟨q, rfl⟩ := Nat.exists_eq_add_of_lt hlt
      rw [if_neg (by omega), show m + q + 1 - m = q + 1 by omega, List.getD_cons_succ,
        getD_drop_tiles_append_zero, show m + 2 + q = m + q + 1 + 1 by omega]

/-- With nothing to do in front of the last cell, the scan reaches the end of the line (R142). -/
theorem slide_of_blockedBefore_three {l : Line} (h : BlockedBefore (tiles l) 3) : slide l = l := by
  refine line_ext fun p hp => ?_
  rw [nib_slide_of_blockedBefore (by decide) hp h]
  split
  · rfl
  · rw [show p = 3 by omega]; rfl

theorem nib_succ_of_lt_four (l : Line) {p : Nat} (hp : p < 4) :
    nib l (p + 1) = if p < 3 then nib l (p + 1) else 0 := by
  split
  · rfl
  · exact nib_of_ge l (by omega)

/-- Settles O59: the scan passes what is in front of the first point, and acts there or reaches the end. -/
theorem slideActsAtTheFirstPoint : Obligations.SlideActsAtTheFirstPoint := by
  refine fun l => ⟨fun i h1 h3 hfront => ?point, fun h => ?fixed⟩
  case point =>
    obtain ⟨m, rfl⟩ := Nat.exists_eq_add_of_le' h1
    have hfront := blockedBefore_tiles_iff.mpr hfront
    refine ⟨fun hgap p hp => ?gap, fun hmerge p hp => ?merge⟩
    case gap => rw [← nib_succ_of_lt_four l hp]; exact nib_slide_of_gap h3 hp hfront hgap
    case merge =>
      rw [← nib_succ_of_lt_four l hp]
      exact nib_slide_of_merge h3 hp hfront (canMergeAt_succ_iff.mp hmerge)
  case fixed =>
    exact slide_of_blockedBefore_three
      (blockedBefore_tiles_iff.mpr fun k h1 hk => h k h1 (Nat.le_of_lt_succ hk))

end Sys2Proof.Machine
end

section
/-! The transition tables (R160-R170): what an edge does to the build, how a read of an entry can change, what
LUT_READ answers, and the obligations about them. -/

namespace Sys2Proof.Machine

/-! ### The build beside the command stream -/

/-- Two states in which the build stands the same: the tables, the builder's progress, READY and the count of
resets. -/
structure SameBuild (s u : State) : Prop where
  lut : u.lut = s.lut
  builder : u.builder = s.builder
  ready : u.status.ready = s.status.ready
  epoch : u.epoch = s.epoch

theorem SameBuild.sameTables {s u : State} (h : SameBuild s u) : SameTables s u :=
  lutRead_congr h.lut h.epoch

/-- No command touches the build (R163). -/
theorem exec_sameBuild {i : Instr} {s t : State} (h : exec i s = .next t) : SameBuild s t := by
  obtain ⟨e, -, rfl⟩ | ⟨-, x, rfl⟩ | ⟨-, x, rfl⟩ | ⟨v, -, -, rfl⟩ | ⟨d, tl, r, -, -, -, -, -, rfl⟩ |
    ⟨d, tl, r, -, -, -, -, -, rfl⟩ := exec_cases h
  all_goals exact ⟨rfl, rfl, rfl, rfl⟩

/-- Nor does an accepted word, legal or not. -/
theorem runCommand_sameBuild {w : CmdWord} {x : Data} {s t : State} (h : runCommand w x s = .next t) :
    SameBuild s t := by
  obtain ⟨i, -, hi⟩ | ⟨e, -, rfl⟩ := runCommand_cases h
  · exact exec_sameBuild hi
  · exact ⟨rfl, rfl, rfl, rfl⟩

/-- Nor does anything else the port does at an edge. -/
theorem portEdge_sameBuild {p : Pins} {s t : State} (h : portEdge p s = .next t) : SameBuild s t := by
  obtain ⟨-, -, rfl⟩ | ⟨-, -, rfl⟩ | ⟨w, x, r, -, hc⟩ | ⟨w, x, k, r, -, rfl⟩ | ⟨e, x, -, -, rfl⟩ |
    ⟨e, x, -, -, rfl⟩ := portEdge_cases h
  case inr.inr.inl => exact runCommand_sameBuild hc
  all_goals exact ⟨rfl, rfl, rfl, rfl⟩

/-- To the build an edge with `rst` = 0 is the builder's edge (R70). -/
theorem step_sameBuild {s t : State} (hr : (nextPins s).rst = false) (h : step s = .next t) :
    ∃ u, SameBuild s u ∧ t = builderEdge u := by
  obtain ⟨hr', -⟩ | ⟨-, u, hu, rfl⟩ := step_cases h
  · cases hr.symm.trans hr'
  · have hd : SameBuild (dropPins s) u := portEdge_sameBuild hu
    exact ⟨u, ⟨hd.lut, hd.builder, hd.ready, hd.epoch⟩, rfl⟩

/-- Where an edge leaves READY and the count of written entries, from a state of a build: it is a reset, the
edge that writes the last entry, or one that leaves an entry (R161, R162). -/
theorem step_build_cases {s t : State} (h : step s = .next t) (hr : s.status.ready = false)
    (hw : s.builder.written < Config.lutSpace) :
    (t.status.ready = true ∧ t.builder.written = Config.lutSpace) ∨
    (t.status.ready = false ∧ t.builder.written < Config.lutSpace) := by
  cases hrst : (nextPins s).rst with
  | true =>
    cases (step_of_rst hrst).symm.trans h
    exact .inr ⟨rfl, Nat.zero_lt_succ _⟩
  | false =>
    obtain ⟨u, hu, rfl⟩ := step_sameBuild hrst h
    have hru : u.status.ready = false := hu.ready.trans hr
    rw [← hu.builder] at hw
    cases hend : buildEnds u.builder with
    | true => exact .inl (by simp [hru, hend, buildUpTo_of_ends])
    | false => exact .inr (by simp [hru, hend, (buildUpTo_of_not_ends u.epoch hend hw).2])

/-- Settles O14: during a build an edge raises READY exactly when it writes the last entry, and under the
invariant READY = 1 says that all are written. -/
theorem readyExactlyWhenTablesBuilt : Obligations.ReadyExactlyWhenTablesBuilt := by
  refine ⟨fun s t hI h hr ht => ?rises, fun s t hI h hr ht => ?stays, fun s hI => tablesBuilt_of_inv hI⟩
  all_goals
    have hw : s.builder.written < Config.lutSpace := (hI.building hr).1
    obtain ⟨ht', hwt⟩ | ⟨ht', hwt⟩ := step_build_cases h hr hw
  case rises.inl => exact ⟨hw, hwt⟩
  case stays.inr => exact hwt
  all_goals cases ht.symm.trans ht'

/-! ### What a write of the builder can do to an entry -/

/-- A builder write leaves an entry or gives it its final value, wherever the write goes (R161). -/
theorem lookup_buildWrite_cases (e : Nat) (m : Memory) (k a : Nat) :
    (buildWrite e m k).lookup a = m.lookup a ∨
    (buildWrite e m k).lookup a = some (transform (addrDir a) (addrLine a)) := by
  simp only [buildWrite, lutWrite, Memory.lookup_write]
  split
  · next ha => right; rw [ha, addrDir_lutAddr, addrLine_lutAddr]
  · exact .inl rfl

/-- So does a run of them. -/
theorem lookup_buildWrites_cases (e : Nat) (m : Memory) (k c a : Nat) :
    (buildWrites e m k c).lookup a = m.lookup a ∨
    (buildWrites e m k c).lookup a = some (transform (addrDir a) (addrLine a)) := by
  induction c generalizing m k with
  | zero => exact .inl rfl
  | succ c ih =>
    rw [buildWrites_succ]
    obtain h | h := ih (buildWrite e m k) (k + 1)
    · rw [h]; exact lookup_buildWrite_cases e m k a
    · exact .inr h

/-- So does an edge of the builder. -/
theorem lookup_builderEdge_cases (s : State) (a : Nat) :
    (builderEdge s).lut.lookup a = s.lut.lookup a ∨
    (builderEdge s).lut.lookup a = some (transform (addrDir a) (addrLine a)) := by
  rw [builderEdge_lut]
  split
  · exact .inl rfl
  · exact lookup_buildWrites_cases ..

/-- In terms of reads: after an edge of the builder an entry reads as before, or is valid with its final value. -/
theorem lutRead_builderEdge_cases (s : State) (d : Dir) (n : Line) :
    lutRead (builderEdge s) d n = lutRead s d n ∨ lutRead (builderEdge s) d n = (true, transform d n) := by
  obtain h | h := lookup_builderEdge_cases s (lutAddr d n)
  · left; simp only [lutRead, h, builderEdge_epoch]
  · right
    rw [addrDir_lutAddr, addrLine_lutAddr] at h
    exact lutRead_of_lookup_some h

/-- Under the invariant an entry that is valid has its final value, during the build too (R161). -/
theorem lutRead_of_valid {s : State} (hI : MachineInv s) {d : Dir} {n : Line} (hv : (lutRead s d n).1 = true) :
    lutRead s d n = (true, transform d n) := by
  apply lutRead_of_lookup_some
  obtain h | h := lookup_buildWrites_cases s.epoch [] 0 s.builder.written (lutAddr d n)
  all_goals rw [← hI.built] at h
  · rw [lutRead_of_lookup_none h] at hv; cases hv
  · rwa [addrDir_lutAddr, addrLine_lutAddr] at h

/-- Settles O16: the builder alone writes entries, it only ever gives an entry its final value, and it stops at
READY = 1. -/
theorem tablesImmutableAfterReady : Obligations.TablesImmutableAfterReady := by
  refine ⟨fun s t hready hrst h => ?ready, fun s t d n hrst h hv => ?valid,
    fun i s t h => (exec_sameBuild h).sameTables, fun s t hrst h => ?reset⟩
  case ready =>
    obtain ⟨u, hu, rfl⟩ := step_sameBuild hrst h
    have hru : u.status.ready = true := hu.ready.trans hready
    rw [builderEdge_of_ready hru]
    exact ⟨hru, hu.sameTables⟩
  case valid =>
    obtain ⟨u, hu, rfl⟩ := step_sameBuild hrst h
    obtain hsame | hfinal := lutRead_builderEdge_cases u d n
    · rw [hsame, hu.sameTables d n]; exact ⟨hv, fun _ => rfl⟩
    · rw [hfinal]; exact ⟨rfl, fun hI => (lutRead_of_valid hI hv).symm⟩
  case reset =>
    cases (step_of_rst hrst).symm.trans h
    exact ⟨rfl, rfl, lutRead_resetEdge_valid (dropPins s)⟩

/-! ### LUT_READ -/

theorem exec_lutRead_of_ready {s : State} (d : Dir) (n : Line) (hr : commandReady s = true) :
    exec (.lutRead d n) s = .next (complete ((lutEntryWord (lutRead s d n)).setWidth 64) s) :=
  if_pos hr

theorem exec_lutRead_of_not_ready {s : State} (d : Dir) (n : Line) (hr : commandReady s = false) :
    exec (.lutRead d n) s = .next (raise .notReady s) :=
  if_neg (Bool.eq_false_iff.mp hr)

/-- The data below, the valid bit above (R92). -/
theorem getLsbD_lutEntryWord (e : Bool × Line) (k : Nat) :
    (lutEntryWord e).getLsbD k = if k < 16 then e.2.getLsbD k else (flagBit e.1).getLsbD (k - 16) :=
  BitVec.getLsbD_append

/-- LUT_READ's response word has the entry's data in its low 16 bits (R170). -/
theorem extractLsb'_lutEntryWord_data (e : Bool × Line) :
    ((lutEntryWord e).setWidth 64 : Data).extractLsb' 0 16 = e.2 := by
  ext k hk
  have hk64 : k < 64 := by omega
  simp [getLsbD_lutEntryWord, hk, hk64, BitVec.getLsbD_eq_getElem]

/-- The valid bit is its bit 16. -/
theorem getLsbD_lutEntryWord_valid (e : Bool × Line) :
    ((lutEntryWord e).setWidth 64 : Data).getLsbD 16 = e.1 := by
  rw [BitVec.getLsbD_setWidth, getLsbD_lutEntryWord]
  simp [flagBit]

/-- The bits above it are 0. -/
theorem extractLsb'_lutEntryWord_rest (e : Bool × Line) :
    ((lutEntryWord e).setWidth 64 : Data).extractLsb' 17 47 = 0 := by
  ext k hk
  simp

/-- The empty line and the line of four tiles of code 15 stay in every direction (R144, R146). -/
theorem transform_zero (d : Dir) : transform d 0x0000 = 0x0000 := by cases d <;> decide

theorem transform_ones (d : Dir) : transform d 0xFFFF = 0xFFFF := by cases d <;> decide

/-- Settles O19: the row of LUT_READ, its two ends, and the built tables' entries of the corner cases. -/
theorem lutReadReturnsTheEntry : Obligations.LutReadReturnsTheEntry := by
  refine ⟨fun w x d n => decode_eq_ok_iff_mask (.lutRead d n), fun s d n hr => ?entry,
    refusesStrayBits_maskOf 0x8, rfl, fun s d n hr => ?notReady, fun s d hI hr n => ?built⟩
  case entry =>
    exact ⟨_, exec_lutRead_of_ready d n hr, extractLsb'_lutEntryWord_data _, getLsbD_lutEntryWord_valid _,
      extractLsb'_lutEntryWord_rest _⟩
  case notReady => exact exec_lutRead_of_not_ready d n (commandReady_of_not_ready hr)
  case built =>
    have hentry := tablesBuilt_of_inv hI (ready_of_commandReady hr) d n
    refine ⟨_, _, exec_lutRead_of_ready d n hr, rfl, ?_⟩
    rw [hentry]
    refine ⟨getLsbD_lutEntryWord_valid _, ?_, ?_, ?_⟩
    · rintro rfl; rw [transform_zero]; decide
    · rintro rfl; rw [transform_ones]; decide
    · rintro rfl rfl; decide

end Sys2Proof.Machine
end

section
/-! The largest code of a board (R35), which HIGHEST follows: it bounds every cell's code and is one of them. -/

namespace Sys2Proof.Machine

theorem toNat_maxCode (a b : Code) : (maxCode a b).toNat = max a.toNat b.toNat := by
  unfold maxCode
  split <;> omega

theorem le_maxCode_left (a b : Code) : a.toNat ≤ (maxCode a b).toNat := by
  rw [toNat_maxCode]; exact le_max_left ..

theorem le_maxCode_right (a b : Code) : b.toNat ≤ (maxCode a b).toNat := by
  rw [toNat_maxCode]; exact le_max_right ..

theorem maxCode_eq_or (a b : Code) : maxCode a b = a ∨ maxCode a b = b :=
  (ite_eq_or_eq ..).symm

/-- The largest of a start value and the codes that a list of indices gives: the scan of `maxnib` (R35). -/
def maxOver (f : Nat → Code) (l : List Nat) (m : Code) : Code := l.foldl (fun m i => maxCode m (f i)) m

theorem maxnib_eq_maxOver (v : Board) : maxnib v = maxOver (nib v) cellIndices 0 := rfl

theorem maxOver_cons (f : Nat → Code) (a : Nat) (l : List Nat) (m : Code) :
    maxOver f (a :: l) m = maxOver f l (maxCode m (f a)) := rfl

/-- The scan only goes up. -/
theorem le_maxOver (f : Nat → Code) (l : List Nat) (m : Code) : m.toNat ≤ (maxOver f l m).toNat := by
  induction l generalizing m with
  | nil => exact le_rfl
  | cons a l ih => exact (le_maxCode_left m (f a)).trans (ih _)

/-- No code that the scan passes exceeds its result. -/
theorem le_maxOver_of_mem {f : Nat → Code} {l : List Nat} {i : Nat} (hi : i ∈ l) (m : Code) :
    (f i).toNat ≤ (maxOver f l m).toNat := by
  induction hi generalizing m with
  | head l => exact (le_maxCode_right m (f i)).trans (le_maxOver f l _)
  | tail a _ ih => exact ih _

/-- The result is the start value or a code that the scan passes. -/
theorem maxOver_eq_or (f : Nat → Code) (l : List Nat) (m : Code) :
    maxOver f l m = m ∨ ∃ i ∈ l, f i = maxOver f l m := by
  induction l generalizing m with
  | nil => exact .inl rfl
  | cons a l ih =>
    rw [maxOver_cons]
    obtain h | ⟨i, hi, h⟩ := ih (maxCode m (f a))
    · rw [h]
      exact (maxCode_eq_or m (f a)).imp_right fun h => ⟨a, List.mem_cons_self, h.symm⟩
    · exact .inr ⟨i, List.mem_cons_of_mem a hi, h⟩

theorem nib_le_maxnib (v : Board) {i : Nat} (hi : i < 16) : (nib v i).toNat ≤ (maxnib v).toNat :=
  le_maxOver_of_mem (List.mem_range.mpr hi) 0

/-- Some cell holds the largest code: where it is the scan's start value 0, cell 0 does. -/
theorem exists_nib_eq_maxnib (v : Board) : ∃ i < 16, nib v i = maxnib v := by
  obtain h | ⟨i, hi, h⟩ := maxOver_eq_or (nib v) cellIndices 0
  · rw [← maxnib_eq_maxOver] at h
    have hle := nib_le_maxnib v (i := 0) (by decide)
    rw [h] at hle ⊢
    exact ⟨0, by decide, BitVec.eq_of_toNat_eq (Nat.le_zero.mp hle)⟩
  · exact ⟨i, List.mem_range.mp hi, h⟩

/-- HIGHEST after a committed move bounds the codes of the board (R197). -/
theorem nib_le_maxCode_maxnib (h : Code) (v : Board) {i : Nat} (hi : i < 16) :
    (nib v i).toNat ≤ (maxCode h (maxnib v)).toNat :=
  (nib_le_maxnib v hi).trans (le_maxCode_right h (maxnib v))

/-- And is its old value or one of those codes. -/
theorem maxCode_maxnib_eq_or (h : Code) (v : Board) :
    maxCode h (maxnib v) = h ∨ ∃ i < 16, nib v i = maxCode h (maxnib v) := by
  obtain he | he := maxCode_eq_or h (maxnib v)
  · exact .inl he
  · rw [he]; exact .inr (exists_nib_eq_maxnib v)

/-- A board with a cell of code 15 has no larger code (R183). -/
theorem maxnib_eq_fifteen {v : Board} {i : Nat} (hi : i < 16) (h : nib v i = 15) : maxnib v = 15 := by
  have hle := nib_le_maxnib v hi
  rw [h] at hle
  exact BitVec.eq_of_toNat_eq (Nat.le_antisymm (Nat.le_of_lt_succ (maxnib v).isLt) hle)

end Sys2Proof.Machine
end

section
/-! NOP, LOAD_BOARD, READ_BOARD and READ_STATUS (R181-R185, R212): their words, their ends, the layout of STATUS,
and the obligations about them. -/

namespace Sys2Proof

/-- A command that uses no field but OP has one word (R87). -/
theorem decode_eq_ok_iff_word {w : CmdWord} {x : Data} {i : Instr} (hm : maskOf i.opcode = 0xFFFFFFFF) :
    decode w x = .ok i ↔ w = patternOf i.opcode ∧ i.OperandsFrom w x := by
  rw [decode_eq_ok_iff_mask, hm, show w &&& 0xFFFFFFFF = w from BitVec.and_allOnes]

/-- So has one that takes no operand from the data bus either. -/
theorem decode_eq_ok_iff_bare {w : CmdWord} {x : Data} {i : Instr} (hm : maskOf i.opcode = 0xFFFFFFFF)
    (hi : i.OperandsFrom w x) : decode w x = .ok i ↔ w = patternOf i.opcode := by
  rw [decode_eq_ok_iff_word hm, and_iff_left hi]

end Sys2Proof

namespace Sys2Proof.Machine

theorem exec_loadBoard_of_no_fault {s : State} (v : Board) (hf : s.status.fault = false) :
    exec (.loadBoard v) s = .next (complete 0 (loadBoard v s)) :=
  if_neg (Bool.eq_false_iff.mp hf)

/-- Settles O23: the row of NOP is the zero word, and its meaning is the response. -/
theorem nopOnlyResponds : Obligations.NopOnlyResponds :=
  ⟨fun _ _ => decode_eq_ok_iff_bare rfl trivial, fun _ => rfl⟩

/-- Settles O24: HIGHEST is `maxnib`, an upper bound of the codes that one of them reaches. -/
theorem loadBoardStartsAGame : Obligations.LoadBoardStartsAGame :=
  ⟨fun _ _ b => decode_eq_ok_iff_word (i := .loadBoard b) rfl,
    fun _ v hf => ⟨maxnib v, exec_loadBoard_of_no_fault v hf, fun _ => nib_le_maxnib v, exists_nib_eq_maxnib v⟩,
    fun _ _ => exec_of_fault rfl, refusesStrayBits_maskOf 0x1, by decide,
    fun _ ⟨_, hi, h⟩ => maxnib_eq_fifteen hi h, by decide⟩

/-- Settles O25: READ_BOARD has one end, in every state; after a load the board is the one loaded. -/
theorem readBoardReturnsTheBoard : Obligations.ReadBoardReturnsTheBoard := by
  refine ⟨fun w x => decode_eq_ok_iff_bare rfl trivial, fun s => rfl,
    refusesStrayBits_maskOf 0x2, ⟨_, rfl, rfl⟩, fun s t u hf ht hu => ?_⟩
  cases (exec_loadBoard_of_no_fault _ hf).symm.trans ht
  cases hu
  rfl

/-! ### The layout of STATUS -/

/-- STATUS field by field (R36). -/
theorem extractLsb'_statusWord (s : State) :
    s.statusWord.extractLsb' 0 1 = flagBit s.status.ready ∧ s.statusWord.extractLsb' 1 1 = flagBit s.status.fault ∧
    s.statusWord.extractLsb' 2 1 = flagBit s.status.changed ∧
    s.statusWord.extractLsb' 3 1 = flagBit s.status.inserted ∧
    s.statusWord.extractLsb' 4 1 = flagBit s.status.defaulted ∧ s.statusWord.extractLsb' 5 1 = flagBit false ∧
    s.statusWord.extractLsb' 6 2 = s.status.lastDir.toBits ∧ s.statusWord.extractLsb' 8 4 = s.highest ∧
    s.statusWord.extractLsb' 12 4 = s.status.lastErr.code ∧ s.statusWord.extractLsb' 16 4 = s.status.insPos ∧
    s.statusWord.extractLsb' 20 4 = s.status.edgeMask ∧ s.statusWord.extractLsb' 24 8 = 0 := by
  -- The field's position is compared with the widths as `statusWord` adds them up.
  simp [-Nat.reduceAdd, State.statusWord, BitVec.extractLsb'_append_eq_of_add_le,
    BitVec.extractLsb'_append_eq_of_le, flagBit]

theorem getLsbD_of_extractLsb'_eq_flagBit {w k : Nat} {x : BitVec w} {b : Bool}
    (h : x.extractLsb' k 1 = flagBit b) : x.getLsbD k = b := by
  simpa [flagBit] using congrArg (·.getLsbD 0) h

/-- READ_STATUS in a state of which HIGHEST and STATUS are known. -/
theorem exec_readStatus_congr {s s' : State} (hh : s.highest = s'.highest) (hs : s.status = s'.status) :
    exec .readStatus s = .next (respond .ok (s'.statusWord.setWidth 64) s) := by
  rw [← statusWord_congr hh hs]; rfl

/-- Settles O26: the response is the STATUS word, and the word's fields lie as R36 has them. -/
theorem readStatusReturnsEveryField : Obligations.ReadStatusReturnsEveryField := by
  refine ⟨fun w x => decode_eq_ok_iff_bare rfl trivial,
    fun s => ⟨s.statusWord, rfl, ?layout⟩, refusesStrayBits_maskOf 0x7, ⟨_, rfl, by rfl⟩,
    fun s hh hs => ?built, fun s hh hs => ?played, by decide, by decide, by decide⟩
  case layout =>
    obtain ⟨h0, h1, h2, h3, h4, h5, hfields⟩ := extractLsb'_statusWord s
    have bit {k : Nat} {b : Bool} := @getLsbD_of_extractLsb'_eq_flagBit 32 k s.statusWord b
    exact ⟨bit h0, bit h1, bit h2, bit h3, bit h4, bit h5, hfields⟩
  case built =>
    exact exec_readStatus_congr (s' := { State.reset with status := { Status.reset with ready := true } }) hh hs
  case played =>
    exact exec_readStatus_congr (s' := { State.reset with
      highest := 4
      status := { Status.reset with
        ready := true, changed := true, inserted := true, insPos := 7, edgeMask := 0xF } }) hh hs

end Sys2Proof.Machine
end

section
/-! SWIPE (R190-R198): the lookups, the insertion multiplexer, EDGE_MASK, the ends of the command, and the
obligations about them. -/

namespace Sys2Proof.Machine

/-! ### The lookups and the candidate board -/

theorem lookupsValid_iff {d : Dir} {s : State} :
    lookupsValid d s = true ↔ ∀ j < 4, (lutRead s d (line s.board (axisOf d) j)).1 = true := by
  simp only [lookupsValid, swipeLookup, Bool.and_eq_true]
  constructor
  · rintro ⟨⟨⟨h0, h1⟩, h2⟩, h3⟩ j hj
    interval_cases j <;> assumption
  · intro h
    exact ⟨⟨⟨h 0 (by decide), h 1 (by decide)⟩, h 2 (by decide)⟩, h 3 (by decide)⟩

/-- With built tables each line of the candidate board is the transform of the old line (R191). -/
theorem line_candidate_of_built {s : State} (h : TablesBuilt s) (d : Dir) {j : Nat} (hj : j < 4) :
    line (candidate d s) (axisOf d) j = transform d (line s.board (axisOf d) j) := by
  rw [candidate_of_built h, line_placeAll _ _ hj]

/-- Settles O27: the candidate board is the four placed lookups, which read the transforms once READY = 1. -/
theorem swipeMovesEveryLineByItsTransform : Obligations.SwipeMovesEveryLineByItsTransform := by
  refine ⟨fun s d => rfl, fun s d hI hr => ?_⟩
  have hbuilt : TablesBuilt s := tablesBuilt_of_inv hI hr
  exact ⟨fun j => line_candidate_of_built hbuilt d, candidate_of_built hbuilt d⟩

/-! ### The no-op -/

/-- Settles O30: a SWIPE whose candidate board is the old board ends as the no-op. -/
theorem noopSwipeConsumesNothing : Obligations.NoopSwipeConsumesNothing := by
  intro s d t r hf hr hv hc
  rw [exec_swipe_of_no_error t r hf hr hv, if_pos hc]
  rfl

/-! ### The insertion -/

theorem pairwise_emptyEdges (d : Dir) (b : Board) : (emptyEdges d b).Pairwise (· < ·) :=
  List.pairwise_lt_range.filter _

/-- EDGE_MASK has the bits of the list `E`, which is a binary numeral because `E` ascends (R195). -/
theorem getLsbD_edgeMaskOf (d : Dir) (b : Board) {j : Nat} (hj : j < 4) :
    (edgeMaskOf (emptyEdges d b)).getLsbD j = decide (j ∈ emptyEdges d b) := by
  have hbits := Nat.bitIndices_sum_map_two_pow (pairwise_emptyEdges d b).sortedLT
  simp only [edgeMaskOf, Nat.one_shiftLeft, BitVec.getLsbD_ofNat, hj, decide_true, Bool.true_and]
  rw [Bool.eq_iff_iff, decide_eq_true_eq, ← Nat.mem_bitIndices, hbits]

/-- The candidate board after the insertion of a tile at the edge of line `k`, or of none (R196, R85). -/
def boardWithTile (d : Dir) (t : Code) (k : Nat) (c : Board) : Board :=
  if t ≠ 0 then setnib c (edgeCell d k) t else c

theorem nib_boardWithTile {d : Dir} {k i : Nat} (t : Code) (c : Board) (hk : k < 4) (hi : i < 16) :
    nib (boardWithTile d t k c) i = if t ≠ 0 ∧ i = edgeCell d k then t else nib c i := by
  rw [boardWithTile, ite_and]
  split
  · exact nib_setnib c t (edgeCell_lt d hk) hi
  · rfl

/-- With an empty trailing-edge cell the multiplexer selects one, and fills it if there is a tile (R196, R85). -/
theorem insertTile_of_edges {d : Dir} {c : Board} (t : Code) (r : Sel) (h : emptyEdges d c ≠ []) :
    ∃ k ∈ emptyEdges d c, (emptyEdges d c)[r.toNat % (emptyEdges d c).length]? = some k ∧
      insertTile d t r c =
        ⟨boardWithTile d t k c, decide (t ≠ 0), if t ≠ 0 then edgeCell d k else 0, false⟩ := by
  obtain ⟨h', -⟩ | ⟨-, rfl, hins⟩ | ⟨-, ht, k, hk, hsel, hins⟩ := insertTile_cases d t r c
  · exact absurd h' h
  · have hlt : r.toNat % (emptyEdges d c).length < (emptyEdges d c).length :=
      Nat.mod_lt _ (List.length_pos_iff.mpr h)
    exact ⟨_, List.getElem_mem hlt, List.getElem?_eq_getElem hlt, hins⟩
  · refine ⟨k, hk, hsel, ?_⟩
    rw [hins, boardWithTile, if_pos ht, if_pos ht, decide_eq_true ht]

/-- A SWIPE that changes the board commits it (R194). -/
theorem exec_swipe_of_change {d : Dir} {s : State} (t : Code) (r : Sel) (hf : s.status.fault = false)
    (hr : commandReady s = true) (hv : lookupsValid d s = true) (hc : candidate d s ≠ s.board) :
    exec (.swipe d t r) s = .next (swipeCommit d t r (candidate d s) s) := by
  rw [exec_swipe_of_no_error t r hf hr hv, if_neg hc]

/-- Settles O31: the commit with the insertion of `insertTile_of_edges`, whose one written cell is read back. -/
theorem swipeCommitsMoveAndInsertsTile : Obligations.SwipeCommitsMoveAndInsertsTile := by
  refine ⟨fun d b => ⟨pairwise_emptyEdges d b, fun j => mem_emptyEdges⟩, fun s d t r hf hr hv hc hE => ?_⟩
  obtain ⟨k, hk, hsel, hins⟩ := insertTile_of_edges t r hE
  have hk4 : k < 4 := (mem_emptyEdges.mp hk).1
  refine ⟨k, boardWithTile d t k (candidate d s), maxCode s.highest (maxnib (boardWithTile d t k (candidate d s))), _,
    hsel, fun i => nib_boardWithTile t _ hk4, fun i => nib_le_maxCode_maxnib _ _, le_maxCode_left _ _,
    maxCode_maxnib_eq_or _ _, fun j => getLsbD_edgeMaskOf d (candidate d s), ?_⟩
  rw [exec_swipe_of_change t r hf hr hv hc, swipeCommit, hins, apply_ite (BitVec.ofNat 4)]
  rfl

/-! ### The defensive case -/

theorem nib_ofTiles_freed (t0 t1 t2 : Code) : nib (ofTiles t0 t1 t2 0) 3 = 0 := by
  rw [nib_ofTiles]; rfl

/-- R144 law 3: a line that a move changes has an empty trailing cell after it. -/
theorem nib_slide_three_of_ne {l : Line} (h : slide l ≠ l) : nib (slide l) 3 = 0 := by
  rw [← ofTiles_nibs l, slide_eq] at h ⊢
  split_ifs at h ⊢
  any_goals rw [nib_ofTiles_freed]
  exact absurd rfl h

/-- The trailing-edge cell of a line is nibble 3 of the canonical line (R137). -/
theorem nib_edgeCell (b : Board) (d : Dir) {j : Nat} (hj : j < 4) :
    nib b (edgeCell d j) = nib (canon (line b (axisOf d) j) d) 3 :=
  (canonPutsTheTrailingCellLast.2.2.2 b d j hj).symm

/-- Boards with the same lines along an axis are equal. -/
theorem board_eq_of_line_eq (a : Axis) {b b' : Board} (h : ∀ j < 4, line b a j = line b' a j) : b = b' :=
  board_ext_lines a fun j hj i hi => by rw [← nib_line b a hj hi, ← nib_line b' a hj hi, h j hj]

/-- With built tables a line that changes frees its trailing-edge cell (R198). -/
theorem mem_emptyEdges_of_line_ne {s : State} (h : TablesBuilt s) {d : Dir} {j : Nat} (hj : j < 4)
    (hne : line (candidate d s) (axisOf d) j ≠ line s.board (axisOf d) j) : j ∈ emptyEdges d (candidate d s) := by
  refine mem_emptyEdges.mpr ⟨hj, ?_⟩
  rw [line_candidate_of_built h d hj, transform] at hne
  have hslide : slide (canon (line s.board (axisOf d) j) d) ≠ canon (line s.board (axisOf d) j) d :=
    fun heq => hne (by rw [heq, canon_canon])
  rw [nib_edgeCell _ d hj, line_candidate_of_built h d hj, transform, canon_canon]
  exact nib_slide_three_of_ne hslide

/-- Settles O33: with no empty edge cell the multiplexer passes the board on, and with built tables a changed board
has a changed line. -/
theorem defensiveCaseIsDefinedAndUnreachable : Obligations.DefensiveCaseIsDefinedAndUnreachable := by
  refine ⟨fun s d t r hf hr hv hc hE => ?defined, fun s d hbuilt hc hE => ?unreachable⟩
  case defined =>
    refine ⟨_, toNat_maxCode .., ?_⟩
    obtain ⟨-, hins⟩ | ⟨hE', -⟩ | ⟨hE', -⟩ := insertTile_cases d t r (candidate d s)
    · rw [exec_swipe_of_change t r hf hr hv hc]
      simp only [swipeCommit, hins, hE]
      rfl
    all_goals exact absurd hE hE'
  case unreachable =>
    refine hc (board_eq_of_line_eq (axisOf d) fun j hj => ?_)
    by_contra hne
    exact List.not_mem_nil (hE ▸ mem_emptyEdges_of_line_ne hbuilt hj hne)

/-! ### FAULT -/

/-- No command clears FAULT (R226). -/
theorem exec_keeps_fault {i : Instr} {s t : State} (h : exec i s = .next t) (hf : s.status.fault = true) :
    t.status.fault = true := by
  obtain ⟨e, -, rfl⟩ | ⟨-, x, rfl⟩ | ⟨-, x, rfl⟩ | ⟨v, -, -, rfl⟩ | ⟨d, tl, r, -, -, -, -, -, rfl⟩ |
    ⟨d, tl, r, -, -, -, -, -, rfl⟩ := exec_cases h
  case inl => rw [raise_fault, hf, faultAfter_true]
  all_goals exact hf

theorem runCommand_keeps_fault {w : CmdWord} {x : Data} {s t : State} (h : runCommand w x s = .next t)
    (hf : s.status.fault = true) : t.status.fault = true := by
  obtain ⟨i, -, hi⟩ | ⟨e, -, rfl⟩ := runCommand_cases h
  · exact exec_keeps_fault hi hf
  · exact hf

theorem portEdge_keeps_fault {p : Pins} {s t : State} (h : portEdge p s = .next t)
    (hf : s.status.fault = true) : t.status.fault = true := by
  obtain ⟨-, -, rfl⟩ | ⟨-, -, rfl⟩ | ⟨w, x, r, -, hc⟩ | ⟨w, x, k, r, -, rfl⟩ | ⟨e, x, -, -, rfl⟩ |
    ⟨e, x, -, -, rfl⟩ := portEdge_cases h
  case inr.inr.inl => exact runCommand_keeps_fault hc hf
  all_goals exact hf

/-- Nor does an edge without a reset. -/
theorem step_keeps_fault {s t : State} (h : step s = .next t) (hf : s.status.fault = true)
    (hrst : (nextPins s).rst = false) : t.status.fault = true := by
  obtain ⟨hrst', -⟩ | ⟨-, u, hu, rfl⟩ := step_cases h
  · cases hrst.symm.trans hrst'
  · exact portEdge_keeps_fault (t := u) hu hf

/-- A SWIPE that reads an invalid entry raises LUT_MISS (R192). -/
theorem exec_swipe_of_invalid {d : Dir} {s : State} (t : Code) (r : Sel) (hf : s.status.fault = false)
    (hr : commandReady s = true) (hv : lookupsValid d s = false) :
    exec (.swipe d t r) s = .next (raise .lutMiss s) := by
  obtain ⟨hf', -⟩ | ⟨-, hr', -⟩ | ⟨-, -, -, he⟩ | ⟨-, -, hv', -⟩ | ⟨-, -, hv', -⟩ := execSwipe_cases d t r s
  · cases hf.symm.trans hf'
  · cases hr.symm.trans hr'
  · exact he
  all_goals cases hv.symm.trans hv'

/-- Settles O34: LUT_MISS is the end of a SWIPE with an invalid lookup, and only a reset edge clears FAULT. -/
theorem lutMissSetsStickyFault : Obligations.LutMissSetsStickyFault := by
  refine ⟨fun s d t r hf hr ⟨j, hj, hv⟩ => ?miss, fun i s t => exec_keeps_fault, fun s t => step_keeps_fault,
    fun s t h hrst => ?reset, fun s i hf hi => ?refused⟩
  case miss =>
    refine exec_swipe_of_invalid t r hf hr (Bool.eq_false_iff.mpr fun hall => ?_)
    cases hv.symm.trans (lookupsValid_iff.mp hall j hj)
  case reset => cases (step_of_rst hrst).symm.trans h; rfl
  case refused =>
    have hi : refusedInFault i = true := by
      obtain ⟨_, rfl⟩ | ⟨_, _, _, rfl⟩ | rfl | ⟨_, rfl⟩ | ⟨_, rfl⟩ := hi <;> rfl
    exact exec_of_fault hi hf

/-! ### HIGHEST -/

/-- An OK SWIPE is a no-op or a commit of the candidate board (R193, R194). -/
theorem exec_swipe_ok_cases {d : Dir} {tl : Code} {r : Sel} {s t : State} (h : exec (.swipe d tl r) s = .next t)
    (hok : t.status.lastErr = .ok) : t = swipeNoop d s ∨ t = swipeCommit d tl r (candidate d s) s := by
  obtain ⟨-, he⟩ | ⟨-, -, he⟩ | ⟨-, -, -, he⟩ | ⟨-, -, -, -, he⟩ | ⟨-, -, -, -, he⟩ := execSwipe_cases d tl r s
  all_goals cases he.symm.trans h
  case inr.inr.inr.inl => exact .inl rfl
  case inr.inr.inr.inr => exact .inr rfl
  all_goals cases hok

/-- Only LOAD_BOARD can lower HIGHEST (R197). -/
theorem highest_le_of_exec {i : Instr} {s t : State} (h : exec i s = .next t) (hi : ∀ v, i ≠ .loadBoard v) :
    s.highest.toNat ≤ t.highest.toNat := by
  obtain ⟨e, -, rfl⟩ | ⟨-, x, rfl⟩ | ⟨-, x, rfl⟩ | ⟨v, hv, -⟩ | ⟨d, tl, r, -, -, -, -, -, rfl⟩ |
    ⟨d, tl, r, -, -, -, -, -, rfl⟩ := exec_cases h
  case inr.inr.inr.inl => exact absurd hv (hi v)
  case inr.inr.inr.inr.inr => exact le_maxCode_left s.highest _
  all_goals exact le_rfl

/-- Settles O35: a commit takes the larger code, every other end but LOAD_BOARD's leaves HIGHEST. -/
theorem highestNeverFallsDuringPlay : Obligations.HighestNeverFallsDuringPlay := by
  refine ⟨fun s t d tl r h hok => ?_, fun i s t => highest_le_of_exec,
    fun v => ⟨fun i => nib_le_maxnib v, exists_nib_eq_maxnib v⟩⟩
  obtain rfl | rfl := exec_swipe_ok_cases h hok
  · exact ⟨nofun, fun _ => rfl⟩
  · exact ⟨fun _ => toNat_maxCode .., nofun⟩

end Sys2Proof.Machine
end

section
/-! SCORE (R205-R208): the score as a sum over the cells, its bound, what SCORE answers, and the obligations about
it. -/

namespace Sys2Proof.Machine

/-! ### The score of a board -/

/-- R205's sum, as one over a set: its order does not matter. -/
theorem boardScore_eq_sum (b : Board) : boardScore b = ∑ i ∈ Finset.range 16, cellScore (nib b i) := rfl

/-- A cell scores most at code 15 (R206). -/
theorem cellScore_le (n : Code) : cellScore n ≤ 3 ^ 13 := by
  revert n; decide

theorem cellScore_of_le_two {n : Code} (h : n.toNat ≤ 2) : cellScore n = 0 :=
  if_neg (by omega)

theorem boardScore_le (b : Board) : boardScore b ≤ 16 * 3 ^ 13 := by
  rw [boardScore_eq_sum]
  exact Finset.sum_le_card_nsmul _ _ _ fun i _ => cellScore_le (nib b i)

/-- A board of codes up to 2 scores nothing (R205). -/
theorem boardScore_of_le_two {b : Board} (h : ∀ i < 16, (nib b i).toNat ≤ 2) : boardScore b = 0 := by
  rw [boardScore_eq_sum]
  exact Finset.sum_eq_zero fun i hi => cellScore_of_le_two (h i (Finset.mem_range.mp hi))

/-- The sum does not overflow its 32 bits (R207). -/
theorem toNat_scoreWord (b : Board) : (scoreWord b).toNat = boardScore b := by
  have hle := boardScore_le b
  exact Nat.mod_eq_of_lt (by simp only [Config.scoreBits]; omega)

/-- SCORE's response data is the sum itself. -/
theorem setWidth_scoreWord (b : Board) : (scoreWord b).setWidth 64 = BitVec.ofNat 64 (boardScore b) := by
  rw [← toNat_scoreWord, BitVec.ofNat_toNat]

/-! ### The command -/

theorem exec_score_of_no_fault {s : State} (hf : s.status.fault = false) :
    exec .score s = .next (complete ((scoreWord s.board).setWidth 64) s) :=
  if_neg (Bool.eq_false_iff.mp hf)

/-- Settles O37: without a fault the response is the sum over the cells. -/
theorem scoreReturnsTheSum : Obligations.ScoreReturnsTheSum := by
  refine ⟨fun w x => decode_eq_ok_iff_bare rfl trivial, fun s hf => ?sum,
    fun s => exec_of_fault rfl, refusesStrayBits_maskOf 0x4, by decide, fun b => boardScore_of_le_two, by decide,
    by decide⟩
  case sum => rw [exec_score_of_no_fault hf, setWidth_scoreWord, boardScore_eq_sum]; rfl

/-- Settles O38: an OK answer carries the score word, which holds the whole sum. -/
theorem scoreNeverWraps : Obligations.ScoreNeverWraps := by
  intro s t x h hp
  have hle := boardScore_le s.board
  refine ⟨hle, by omega, ?_⟩
  cases hf : s.status.fault with
  | true => cases (exec_of_fault rfl hf).symm.trans h; cases hp
  | false =>
    cases (exec_score_of_no_fault hf).symm.trans h
    obtain ⟨-, rfl⟩ := Port.respond.inj hp
    rw [BitVec.extractLsb'_setWidth_of_le (by decide), BitVec.extractLsb'_eq_self, toNat_scoreWord]
    exact ⟨rfl, by ext k hk; simp⟩

/-- Settles O39: a permutation of the cells reorders the sum, and the answer is a function of BOARD. -/
theorem scoreIgnoresTheOrderOfCells : Obligations.ScoreIgnoresTheOrderOfCells := by
  refine ⟨fun b b' σ h => ?permuted, fun s s' t t' hf hf' hb ht ht' => ?answer⟩
  case permuted =>
    simp only [boardScore_eq_sum, Finset.sum_range, h]
    exact Equiv.sum_comp σ fun i => cellScore (nib b i)
  case answer =>
    cases (exec_score_of_no_fault hf).symm.trans ht
    cases (exec_score_of_no_fault hf').symm.trans ht'
    simp [hb]

end Sys2Proof.Machine
end

section
/-! Errors (R221-R224): which words are illegal, what a command that ends with an error writes, LAST_ERR after an
accepted word, and the obligations about them. -/

namespace Sys2Proof

/-- A word of its opcode's row has no bit above OP set that the row fixes: the pattern is OP alone (R87). -/
theorem and_maskOf_and_not_op_of_rowMatches {w : CmdWord} (h : RowMatches w) :
    w &&& maskOf (opField w) &&& ~~~(0xF : CmdWord) = 0 := by
  have hpattern : ∀ op : BitVec 4, patternOf op &&& ~~~(0xF : CmdWord) = 0 := by decide
  rw [h, hpattern]

theorem decode_eq_nop_iff {w : CmdWord} {x : Data} : decode w x = .ok .nop ↔ w = 0x00000000 :=
  decode_eq_ok_iff_bare rfl trivial

theorem decode_eq_readStatus_iff {w : CmdWord} {x : Data} : decode w x = .ok .readStatus ↔ w = 0x00000007 :=
  decode_eq_ok_iff_bare rfl trivial

end Sys2Proof

namespace Sys2Proof.Machine

/-! ### Words that are not legal -/

/-- Settles O45: a legal word has an OP of at most 8 and no bit above OP that its row fixes; every other word is
refused in every state. -/
theorem illegalWordsRaiseIllegalCommandFirst : Obligations.IllegalWordsRaiseIllegalCommandFirst := by
  intro w x s hw
  refine runCommand_of_not_legalWord (Bool.eq_false_iff.mpr fun hl => ?_) x s
  obtain ⟨hop, hrow⟩ := legalWord_iff.mp hl
  obtain hreserved | hstray := hw
  · exact absurd hop (Nat.not_le.mpr hreserved)
  · exact hstray (and_maskOf_and_not_op_of_rowMatches hrow)

/-! ### The end of a command with an error -/

/-- A command that answers an error has ended with `raise` (R223). -/
theorem exec_eq_raise_of_error {i : Instr} {s t : State} {e : ErrCode} {y : Data} (h : exec i s = .next t)
    (hp : t.port = .respond e y) (he : e ≠ .ok) : t = raise e s := by
  obtain ⟨e', -, rfl⟩ | ⟨-, x, rfl⟩ | ⟨-, x, rfl⟩ | ⟨v, -, -, rfl⟩ | ⟨d, tl, r, -, -, -, -, -, rfl⟩ |
    ⟨d, tl, r, -, -, -, -, -, rfl⟩ := exec_cases h
  case inl => cases hp; rfl
  all_goals cases hp; exact absurd rfl he

/-- So has an accepted word, legal or not. -/
theorem runCommand_eq_raise_of_error {w : CmdWord} {x : Data} {s t : State} {e : ErrCode} {y : Data}
    (h : runCommand w x s = .next t) (hp : t.port = .respond e y) (he : e ≠ .ok) : t = raise e s := by
  obtain ⟨i, -, hi⟩ | ⟨-, -, rfl⟩ := runCommand_cases h
  · exact exec_eq_raise_of_error hi hp he
  · cases hp; rfl

/-- Settles O47: the one way to end with an error is `raise`, which writes data 0, and FAULT for LUT_MISS alone. -/
theorem errorsArePrecise : Obligations.ErrorsArePrecise := by
  intro w x s t e y h hp he
  obtain rfl : t = raise e s := runCommand_eq_raise_of_error h hp he
  rw [← faultAfter_eq]
  cases hp
  exact ⟨rfl, rfl⟩

/-! ### LAST_ERR -/

/-- Every command but NOP and READ_STATUS writes the error code of its response to LAST_ERR (R221). -/
theorem exec_writes_lastErr {i : Instr} {s t : State} (h : exec i s = .next t) (hn : i ≠ .nop)
    (hr : i ≠ .readStatus) : ∃ y, t.port = .respond t.status.lastErr y := by
  obtain ⟨e, -, rfl⟩ | ⟨-, x, rfl⟩ | ⟨hi, -⟩ | ⟨v, -, -, rfl⟩ | ⟨d, tl, r, -, -, -, -, -, rfl⟩ |
    ⟨d, tl, r, -, -, -, -, -, rfl⟩ := exec_cases h
  case inr.inr.inl => exact absurd hi (not_or.mpr ⟨hn, hr⟩)
  all_goals exact ⟨_, rfl⟩

/-- Settles O48: NOP and READ_STATUS have one word each, and every other word, decoded or rejected, writes
LAST_ERR. -/
theorem lastErrFollowsTheResponse : Obligations.LastErrFollowsTheResponse := by
  refine ⟨fun w x s t h hn hr => ?written, fun w x s t h hw => ?left⟩
  case written =>
    obtain ⟨i, hd, hi⟩ | ⟨-, -, rfl⟩ := runCommand_cases h
    · refine exec_writes_lastErr hi ?_ ?_
      · rintro rfl; exact hn (decode_eq_nop_iff.mp hd)
      · rintro rfl; exact hr (decode_eq_readStatus_iff.mp hd)
    · exact ⟨0, rfl⟩
  case left =>
    obtain hw | hw := hw
    · cases (runCommand_of_decode (decode_eq_nop_iff.mpr hw) s).symm.trans h; rfl
    · cases (runCommand_of_decode (decode_eq_readStatus_iff.mpr hw) s).symm.trans h; rfl

/-! ### NOT_READY -/

/-- A SWIPE before READY is refused before it reads an entry (R190, R224). -/
theorem exec_swipe_of_not_ready {d : Dir} {s : State} (t : Code) (r : Sel) (hf : s.status.fault = false)
    (hr : commandReady s = false) : exec (.swipe d t r) s = .next (raise .notReady s) := by
  obtain ⟨hf', -⟩ | ⟨-, -, he⟩ | ⟨-, hr', -⟩ | ⟨-, hr', -⟩ | ⟨-, hr', -⟩ := execSwipe_cases d t r s
  case inl => cases hf.symm.trans hf'
  case inr.inl => exact he
  all_goals cases hr.symm.trans hr'

/-- Settles O49: the NOT_READY ends of SWIPE and LUT_READ, and READY = 0 in the step or at the acceptance. -/
theorem notReadyRefusesSwipeAndLutRead : Obligations.NotReadyRefusesSwipeAndLutRead :=
  ⟨fun _ _ t r => exec_swipe_of_not_ready t r, fun _ => exec_lutRead_of_not_ready,
    fun _ => commandReady_of_not_ready, fun _ _ _ _ hp => commandReady_of_busy hp⟩

end Sys2Proof.Machine
end

section
/-! The invariant of the machine after its first reset (R35, R36, R161-R165, R198, R220): its three parts, what
keeps each of them, and the obligations about it. -/

namespace Sys2Proof.Machine

/-! ### The parts of the invariant -/

/-- The error codes that a machine reports after a reset: neither those that need FAULT or an entry that is not
valid (R165), nor a reserved one (R220). -/
def ErrCode.isRegular : ErrCode → Bool
  | .ok | .illegalCommand | .notReady | .domain => true
  | .lutMiss | .faulted | .reserved _ => false

theorem ErrCode.isRegular_iff {e : ErrCode} :
    e.isRegular = true ↔ (e ≠ .lutMiss ∧ e ≠ .faulted) ∧ ∀ k, e ≠ .reserved k := by
  cases e <;> simp [ErrCode.isRegular]

/-- The tables and the builder's progress fit together (R161, R162). -/
structure BuildInv (epoch : Nat) (m : Memory) (b : Builder) (ready : Bool) : Prop where
  canonical : m.wf = true
  built : m = buildWrites epoch [] 0 b.written
  complete : ready = true → b.written = Config.lutSpace
  building : ready = false → b.written < Config.lutSpace ∧ b.edges < Config.buildLatency

/-- The port presents a regular error code, and holds no command accepted with a READY that has fallen since. -/
structure PortInv (p : Port) (ready : Bool) : Prop where
  regular : ∀ e x, p = .respond e x → e.isRegular = true
  accepted : ∀ w x k, p = .busy w x k true → ready = true

/-- What the commands keep of BOARD, HIGHEST and STATUS (R35, R36, R165, R198). -/
structure PlayInv (b : Board) (h : Code) (st : Status) : Prop where
  noFault : st.fault = false
  regular : st.lastErr.isRegular = true
  noDefault : st.defaulted = false
  highest : ∀ i < 16, (nib b i).toNat ≤ h.toNat
  insPos : st.inserted = false → st.insPos = 0
  insertedChanged : st.inserted = true → st.changed = true
  edgeMask : st.changed = true ↔ st.edgeMask ≠ 0

theorem machineInv_iff {s : State} :
    MachineInv s ↔ BuildInv s.epoch s.lut s.builder s.status.ready ∧ PortInv s.port s.status.ready ∧
      PlayInv s.board s.highest s.status := by
  constructor
  · intro h
    refine ⟨⟨h.canonical, h.built, h.complete, h.building⟩, ⟨fun e x hp => ?_, h.accepted⟩,
      ⟨h.noFault, ErrCode.isRegular_iff.mpr ⟨h.noErr, fun k => (h.noReserved k).1⟩, h.noDefault, h.highest,
        h.insPos, h.insertedChanged, h.edgeMask⟩⟩
    refine ErrCode.isRegular_iff.mpr ⟨⟨?_, ?_⟩, fun k => ?_⟩
    · rintro rfl; exact (h.noErrResponse x).1 hp
    · rintro rfl; exact (h.noErrResponse x).2 hp
    · rintro rfl; exact (h.noReserved k).2 x hp
  · rintro ⟨hb, hp, hs⟩
    obtain ⟨hne, hnr⟩ := ErrCode.isRegular_iff.mp hs.regular
    exact {
      canonical := hb.canonical, built := hb.built, complete := hb.complete, building := hb.building
      noFault := hs.noFault, noErr := hne, noDefault := hs.noDefault, highest := hs.highest
      insPos := hs.insPos, insertedChanged := hs.insertedChanged, edgeMask := hs.edgeMask
      accepted := hp.accepted
      noErrResponse := fun x =>
        ⟨fun h => Bool.noConfusion (hp.regular _ x h), fun h => Bool.noConfusion (hp.regular _ x h)⟩
      noReserved := fun k => ⟨hnr k, fun x h => Bool.noConfusion (hp.regular _ x h)⟩ }

/-! ### Reset -/

theorem portInv_idle (ready : Bool) : PortInv .idle ready := ⟨nofun, nofun⟩

/-- The values of R45 meet the invariant, whatever the host drives next and however many resets there were. -/
theorem machineInv_reset (pins : List Pins) (resets : Nat) :
    MachineInv { State.reset with inputs := pins, epoch := resets } := by
  refine machineInv_iff.mpr ⟨⟨rfl, rfl, nofun, fun _ => ⟨?written, Nat.succ_pos _⟩⟩, portInv_idle _,
    ⟨rfl, rfl, rfl, ?highest, fun _ => rfl, nofun, ?edgeMask⟩⟩
  case written => exact Nat.zero_lt_succ _
  case highest => show ∀ i < 16, (nib (0 : Board) i).toNat ≤ (0 : Code).toNat; decide
  case edgeMask => show false = true ↔ (0 : BitVec 4) ≠ 0; decide

/-- Settles O20: the state after reset has the values of R45. -/
theorem resetStateMeetsTheInvariant : Obligations.ResetStateMeetsTheInvariant :=
  machineInv_reset [] 0

/-! ### Commands -/

theorem portInv_respond {e : ErrCode} (he : e.isRegular = true) (x : Data) (ready : Bool) :
    PortInv (.respond e x) ready :=
  ⟨fun _ _ h => (Port.respond.inj h).1 ▸ he, nofun⟩

theorem PlayInv.setLastErr {b : Board} {h : Code} {st : Status} (hp : PlayInv b h st) {e : ErrCode}
    (he : e.isRegular = true) : PlayInv b h { st with lastErr := e } :=
  { hp with regular := he }

/-- A cleared move report meets the rules between its fields (R36). -/
theorem PlayInv.of_noReport {b : Board} {h : Code} {st : Status} (hf : st.fault = false)
    (he : st.lastErr.isRegular = true) (hd : st.defaulted = false) (hb : ∀ i < 16, (nib b i).toNat ≤ h.toNat)
    (hc : st.changed = false) (hi : st.inserted = false) (hp : st.insPos = 0) (hm : st.edgeMask = 0) :
    PlayInv b h st :=
  ⟨hf, he, hd, hb, fun _ => hp, by simp [hi], by simp [hc, hm]⟩

/-- Some edge cell was free: EDGE_MASK is not 0 (R195). -/
theorem edgeMaskOf_ne_zero {d : Dir} {b : Board} (h : emptyEdges d b ≠ []) : edgeMaskOf (emptyEdges d b) ≠ 0 := by
  obtain ⟨j, hj⟩ := List.exists_mem_of_ne_nil _ h
  intro h0
  have hbit := getLsbD_edgeMaskOf d b (mem_emptyEdges.mp hj).1
  simp [h0, hj] at hbit

/-- A committed move with a free edge cell reports as R36 has it. -/
theorem PlayInv.of_swipeCommit {s : State} (hp : PlayInv s.board s.highest s.status) {d : Dir} {c : Board}
    (hE : emptyEdges d c ≠ []) (tl : Code) (r : Sel) :
    PlayInv (swipeCommit d tl r c s).board (swipeCommit d tl r c s).highest (swipeCommit d tl r c s).status := by
  obtain ⟨k, -, -, hins⟩ := insertTile_of_edges tl r hE
  refine ⟨hp.noFault, rfl, ?defaulted, fun i => nib_le_maxCode_maxnib _ _, ?insPos, fun _ => rfl,
    fun _ => edgeMaskOf_ne_zero hE, fun _ => rfl⟩
  case defaulted => rw [swipeCommit_defaulted, hins]
  case insPos =>
    intro h0
    rw [swipeCommit_inserted, hins] at h0
    rw [swipeCommit_insPos, hins, if_neg (of_decide_eq_false h0)]
    rfl

/-- Under the invariant FAULT is 0 and every lookup is valid, so that every error a command raises is regular
(R165). -/
theorem isRegular_of_raisesFor {s : State} (hI : MachineInv s) {i : Instr} {e : ErrCode}
    (h : RaisesFor i s e) : e.isRegular = true := by
  obtain ⟨rfl, -⟩ | ⟨-, hf⟩ | ⟨rfl, -⟩ | ⟨rfl, -⟩ | ⟨-, -, hr, d, -, -, -, hv⟩ := h
  case inr.inl => cases hI.noFault.symm.trans hf
  case inr.inr.inr.inr =>
    have hbuilt : TablesBuilt s := tablesBuilt_of_inv hI (ready_of_commandReady hr)
    cases (lookupsValid_of_built hbuilt d).symm.trans hv
  all_goals rfl

/-- Every command keeps the invariant. -/
theorem exec_keeps_inv {i : Instr} {s t : State} (hI : MachineInv s) (h : exec i s = .next t) :
    MachineInv t := by
  obtain ⟨hbuild, hport, hplay⟩ := machineInv_iff.mp hI
  have hsame := exec_sameBuild h
  refine machineInv_iff.mpr ⟨?build, ?portAndPlay⟩
  case build => rwa [hsame.epoch, hsame.lut, hsame.builder, hsame.ready]
  case portAndPlay =>
    obtain ⟨e, he, rfl⟩ | ⟨-, x, rfl⟩ | ⟨-, x, rfl⟩ | ⟨v, -, hf, rfl⟩ | ⟨d, tl, r, -, hf, -, -, -, rfl⟩ |
      ⟨d, tl, r, -, -, hr, -, hc, rfl⟩ := exec_cases h
    · have he := isRegular_of_raisesFor hI he
      have hne : e ≠ .lutMiss := (ErrCode.isRegular_iff.mp he).1.1
      rw [raise_of_ne_lutMiss hne]
      exact ⟨portInv_respond he _ _, hplay.setLastErr he⟩
    · exact ⟨portInv_respond rfl _ _, hplay.setLastErr rfl⟩
    · exact ⟨portInv_respond rfl _ _, hplay⟩
    · exact ⟨portInv_respond rfl _ _,
        .of_noReport hf rfl rfl (fun i => nib_le_maxnib v) rfl rfl rfl rfl⟩
    · exact ⟨portInv_respond rfl _ _, .of_noReport hf rfl rfl hplay.highest rfl rfl rfl rfl⟩
    · have hbuilt : TablesBuilt s := tablesBuilt_of_inv hI (ready_of_commandReady hr)
      have hE := defensiveCaseIsDefinedAndUnreachable.2 s d hbuilt hc
      exact ⟨portInv_respond rfl _ _, hplay.of_swipeCommit hE tl r⟩

/-! ### Edges -/

/-- ILLEGAL_COMMAND is the reserved rows' meaning, so a word that decodes to none keeps what a command keeps. -/
theorem runCommand_keeps_inv {w : CmdWord} {x : Data} {s t : State} (hI : MachineInv s)
    (h : runCommand w x s = .next t) : MachineInv t := by
  obtain ⟨i, -, hi⟩ | ⟨e, -, rfl⟩ := runCommand_cases h
  · exact exec_keeps_inv hI hi
  · exact exec_keeps_inv (i := .reserved9 0) hI rfl

theorem machineInv_setPort {s : State} (hI : MachineInv s) {p : Port} (hp : PortInv p s.status.ready) :
    MachineInv { s with port := p } := by
  obtain ⟨hbuild, -, hplay⟩ := machineInv_iff.mp hI
  exact machineInv_iff.mpr ⟨hbuild, hp, hplay⟩

theorem machineInv_dropPins {s : State} (hI : MachineInv s) : MachineInv (dropPins s) := by
  obtain ⟨hbuild, hport, hplay⟩ := machineInv_iff.mp hI
  exact machineInv_iff.mpr ⟨hbuild, hport, hplay⟩

/-- Whatever the port does at an edge keeps the invariant: an accepted command samples the READY of the edge. -/
theorem portEdge_keeps_inv {p : Pins} {s t : State} (hI : MachineInv s) (h : portEdge p s = .next t) :
    MachineInv t := by
  obtain ⟨-, -, rfl⟩ | ⟨-, -, rfl⟩ | ⟨w, x, r, -, hc⟩ | ⟨w, x, k, r, hp, rfl⟩ | ⟨e, x, -, -, rfl⟩ |
    ⟨e, x, -, -, rfl⟩ := portEdge_cases h
  · exact machineInv_setPort hI ⟨nofun, fun _ _ _ h => (Port.busy.inj h).2.2.2⟩
  · exact hI
  · exact runCommand_keeps_inv hI hc
  · exact machineInv_setPort hI ⟨nofun, by rintro _ _ _ ⟨⟩; exact hI.accepted _ _ _ hp⟩
  · exact machineInv_setPort hI (portInv_idle _)
  · exact hI

/-- The builder's next run of writes continues those it has made; the last one falls at the edge at which READY
rises (R161, R162). -/
theorem buildInv_builderEdge {s : State} (hb : BuildInv s.epoch s.lut s.builder s.status.ready) :
    BuildInv (builderEdge s).epoch (builderEdge s).lut (builderEdge s).builder (builderEdge s).status.ready := by
  cases hr : s.status.ready with
  | true => rwa [builderEdge_of_ready hr]
  | false =>
    obtain ⟨hw, he⟩ := hb.building hr
    have hle : s.builder.written ≤ buildUpTo s.epoch s.builder := by
      cases hend : buildEnds s.builder with
      | true => rw [buildUpTo_of_ends _ hend]; exact hw.le
      | false => exact (buildUpTo_of_not_ends _ hend hw).1
    refine ⟨wf_builderEdge hb.canonical, ?built, ?complete, ?building⟩
    case built =>
      have hrun := buildWrites_append s.epoch [] 0 s.builder.written
        (buildUpTo s.epoch s.builder - s.builder.written)
      rw [Nat.zero_add, ← hb.built, Nat.add_sub_cancel' hle] at hrun
      simpa [hr] using hrun
    case complete =>
      intro hend
      simp only [builderEdge_ready, hr, Bool.false_or] at hend
      simp [hr, buildUpTo_of_ends _ hend]
    case building =>
      intro hend
      simp only [builderEdge_ready, hr, Bool.false_or] at hend
      simp only [builderEdge_builder, hr, Bool.false_eq_true, if_false]
      exact ⟨(buildUpTo_of_not_ends _ hend hw).2, Nat.lt_of_not_le (of_decide_eq_false hend)⟩

/-- The builder's work at an edge keeps the invariant. -/
theorem machineInv_builderEdge {s : State} (hI : MachineInv s) : MachineInv (builderEdge s) := by
  obtain ⟨hbuild, hport, hplay⟩ := machineInv_iff.mp hI
  refine machineInv_iff.mpr ⟨buildInv_builderEdge hbuild, ⟨hport.regular, fun w x k hp => ?_⟩, { hplay with }⟩
  rw [builderEdge_ready, hport.accepted w x k hp, Bool.true_or]

/-- Settles O21: an edge is a reset, or the port's work followed by the builder's, and each of these keeps the
invariant. -/
theorem everyStepKeepsTheInvariant : Obligations.EveryStepKeepsTheInvariant := by
  intro s t hI h
  obtain ⟨-, rfl⟩ | ⟨-, u, hu, rfl⟩ := step_cases h
  · exact machineInv_reset s.inputs.tail (s.epoch + 1)
  · exact machineInv_builderEdge (portEdge_keeps_inv (machineInv_dropPins hI) hu)

/-- Settles O22: the tables are built once READY = 1, and every command keeps the invariant, which excludes
LUT_MISS and FAULT. -/
theorem lutMissIsUnreachable : Obligations.LutMissIsUnreachable := by
  refine fun s hI => ⟨fun hr => lookupsValid_of_built (tablesBuilt_of_inv hI hr), fun i t x h => ?_⟩
  have ht : MachineInv t := exec_keeps_inv hI h
  exact ⟨(ht.noErrResponse x).1, ht.noFault⟩

end Sys2Proof.Machine
end

section
/-! Decoding and encoding (R82-R93): a word is what its fields assemble to, the two directions of the round trip,
the assembler's words and refusals, and the obligations about them. -/

namespace Sys2Proof

open Machine

/-! ### The word of an instruction -/

@[simp] theorem opField_encodeWord (i : Instr) : opField (encodeWord i) = i.opcode := by
  cases i with
  | reserved9 _ | reservedA _ | reservedB _ | reservedC _ | reservedD _ | reservedE _ | reservedF _ =>
    exact opField_assembleReserved ..
  | _ => exact opField_assembleWord ..

/-- The word of a legal command is legal, and so of its row (R89). -/
theorem rowMatches_of_legalWord {i : Instr} (hi : i.wellFormed = true) (h : Laws.LegalWord.Statement i) :
    RowMatches (encodeWord i) :=
  (legalWord_iff.mp (h.trans hi)).2

/-- A reserved row leaves the bits above OP open (R87). -/
theorem maskOf_of_reserved {op : BitVec 4} (h : 8 < op.toNat) : maskOf op = 0x0000000F := by
  revert op; decide

theorem rowMatches_assembleReserved {op : BitVec 4} (h : 8 < op.toNat) (rest : BitVec 28) :
    RowMatches (assembleReserved op rest) := by
  rw [RowMatches, opField_assembleReserved, maskOf_of_reserved h]
  exact reserved_and_mask op rest

theorem rowMatches_encodeWord (i : Instr) : RowMatches (encodeWord i) := by
  cases i with
  | nop => exact rowMatches_of_legalWord rfl Laws.LegalWord.nop
  | loadBoard b => exact rowMatches_of_legalWord rfl (Laws.LegalWord.loadBoard b)
  | readBoard => exact rowMatches_of_legalWord rfl Laws.LegalWord.readBoard
  | swipe d t r => exact rowMatches_of_legalWord rfl (Laws.LegalWord.swipe d t r)
  | score => exact rowMatches_of_legalWord rfl Laws.LegalWord.score
  | encode f => exact rowMatches_of_legalWord rfl (Laws.LegalWord.encode f)
  | decode c => exact rowMatches_of_legalWord rfl (Laws.LegalWord.decode c)
  | readStatus => exact rowMatches_of_legalWord rfl Laws.LegalWord.readStatus
  | lutRead d n => exact rowMatches_of_legalWord rfl (Laws.LegalWord.lutRead d n)
  | reserved9 _ | reservedA _ | reservedB _ | reservedC _ | reservedD _ | reservedE _ | reservedF _ =>
    exact rowMatches_assembleReserved (by decide) _

/-- The operands of an instruction are the fields of its word, and LOAD_BOARD's is its data. -/
theorem operandsFrom_encode (i : Instr) : i.OperandsFrom (encodeWord i) (encodeData i) := by
  cases i with
  | nop | readBoard | score | readStatus => trivial
  | loadBoard b => rfl
  | swipe d t r =>
    exact ⟨(dirField_assembleWord ..).symm, (tileField_assembleWord ..).symm, (selField_assembleWord ..).symm⟩
  | encode f => exact (immField_assembleWord ..).symm
  | decode c => exact (tileField_assembleWord ..).symm
  | lutRead d n => exact ⟨(dirField_assembleWord ..).symm, (immField_assembleWord ..).symm⟩
  | reserved9 _ | reservedA _ | reservedB _ | reservedC _ | reservedD _ | reservedE _ | reservedF _ =>
    exact (restField_assembleReserved ..).symm

/-- Settles O4: the word is of the instruction's row and carries its operands. -/
theorem decodeOfEncodeIsIdentity : Obligations.DecodeOfEncodeIsIdentity := by
  intro i
  have hrow : encodeWord i &&& maskOf i.opcode = patternOf i.opcode :=
    and_maskOf_eq_patternOf_iff.mpr ⟨opField_encodeWord i, rowMatches_encodeWord i⟩
  exact (decode_eq_ok_iff_mask i).mpr ⟨hrow, operandsFrom_encode i⟩

/-! ### A word is what its fields assemble to -/

/-- RSV, bits 7 and 6 (R82). -/
def rsvField (w : CmdWord) : BitVec 2 := w.extractLsb' 6 2

/-- R83: the fields of a word with RSV = 0 assemble to the word. -/
theorem assembleWord_fields {w : CmdWord} (h : rsvField w = 0) :
    assembleWord (opField w) (dirField w) (tileField w) (selField w) (immField w) = w := by
  refine word_ext fun k hk => ?_
  have hrsv : ∀ j < 2, w.getLsbD (6 + j) = false := fun j hj => by
    simpa [rsvField, hj] using congrArg (·.getLsbD j) h
  rw [getLsbD_assembleWord _ _ _ _ _ hk]
  simp only [opField, dirField, tileField, selField, immField, BitVec.getLsbD_extractLsb']
  split_ifs with h4 h8 h12 h16
  · simp [h4]
  · rw [show 4 + (k - 4) = k by omega]
    by_cases h6 : k < 6
    · simp [show k - 4 < 2 by omega]
    · have hbit := hrsv (k - 6) (by omega)
      rw [show 6 + (k - 6) = k by omega] at hbit
      simp [hbit]
  · simp [show k - 8 < 4 by omega, show 8 + (k - 8) = k by omega]
  · simp [show k - 12 < 4 by omega, show 12 + (k - 12) = k by omega]
  · simp [show k - 16 < 16 by omega, show 16 + (k - 16) = k by omega]

/-- A word is OP and the bits above it. -/
theorem assembleReserved_fields (w : CmdWord) : assembleReserved (opField w) (restField w) = w := by
  refine word_ext fun k hk => ?_
  rw [getLsbD_assembleReserved _ _ hk]
  simp only [opField, restField, BitVec.getLsbD_extractLsb']
  split_ifs with h4
  · simp [h4]
  · simp [show k - 4 < 28 by omega, show 4 + (k - 4) = k by omega]

/-- The bits above OP that a row's mask keeps are 0 in its words. -/
theorem extractLsb'_eq_zero {w : CmdWord} {op : BitVec 4} (h : w &&& maskOf op = patternOf op) (a n : Nat)
    (hm : (maskOf op).extractLsb' a n = BitVec.allOnes n ∧ (patternOf op).extractLsb' a n = 0) :
    w.extractLsb' a n = 0 := by
  obtain ⟨hones, hzero⟩ := hm
  rw [← hzero, ← h, BitVec.extractLsb'_and, hones, BitVec.and_allOnes]

/-- A word decodes to no other instruction than those it is the word of. -/
theorem encodeWord_of_decode {w : CmdWord} {x : Data} {i : Instr} (h : decode w x = .ok i) :
    encodeWord i = w := by
  obtain ⟨hrow, hops⟩ := (decode_eq_ok_iff_mask i).mp h
  obtain ⟨hop, -⟩ := and_maskOf_eq_patternOf_iff.mp hrow
  cases i with
  | nop | readBoard | score | readStatus | loadBoard _ => exact (decode_eq_ok_iff_word rfl |>.mp h).1.symm
  | swipe d t r =>
    have masked (a n : Nat) := extractLsb'_eq_zero (op := 0x3) hrow a n
    obtain ⟨hd, rfl, rfl⟩ := hops
    have hfields := assembleWord_fields (w := w) (masked 6 2 (by decide))
    rwa [hop, ← hd, show immField w = 0 from masked 16 16 (by decide)] at hfields
  | encode f =>
    have masked (a n : Nat) := extractLsb'_eq_zero (op := 0x5) hrow a n
    obtain rfl := hops
    have hfields := assembleWord_fields (w := w) (masked 6 2 (by decide))
    rwa [hop, show dirField w = 0 from masked 4 2 (by decide), show tileField w = 0 from masked 8 4 (by decide),
      show selField w = 0 from masked 12 4 (by decide)] at hfields
  | decode c =>
    have masked (a n : Nat) := extractLsb'_eq_zero (op := 0x6) hrow a n
    obtain rfl := hops
    have hfields := assembleWord_fields (w := w) (masked 6 2 (by decide))
    rwa [hop, show dirField w = 0 from masked 4 2 (by decide), show selField w = 0 from masked 12 4 (by decide),
      show immField w = 0 from masked 16 16 (by decide)] at hfields
  | lutRead d n =>
    have masked (a n : Nat) := extractLsb'_eq_zero (op := 0x8) hrow a n
    obtain ⟨hd, rfl⟩ := hops
    have hfields := assembleWord_fields (w := w) (masked 6 2 (by decide))
    rwa [hop, ← hd, show tileField w = 0 from masked 8 4 (by decide),
      show selField w = 0 from masked 12 4 (by decide)] at hfields
  | reserved9 r | reservedA r | reservedB r | reservedC r | reservedD r | reservedE r | reservedF r =>
    obtain rfl := hops
    have hfields := assembleReserved_fields w
    rwa [hop] at hfields

/-- Settles O5: the fields that a row uses are the operands, and its mask fixes the others. -/
theorem encodeOfDecodeIsTheWord : Obligations.EncodeOfDecodeIsTheWord := by
  refine fun w x i h => ⟨encodeWord_of_decode h, ?_⟩
  rintro b rfl
  exact ((decode_eq_ok_iff_mask (.loadBoard b)).mp h).2

/-- Settles O1: the decoder evaluated on the words. -/
theorem specWordsDecodeToTheirCommands : Obligations.SpecWordsDecodeToTheirCommands := by
  refine ⟨?_, ?_, ?_, ?_, ?_, ?_, ?_, ?_, ?_, ?_, ?_, ?_⟩ <;> rfl

/-! ### An assembled word as a number -/

/-- The fields of a word do not overlap (R82). -/
theorem assembleWord_eq_append (op : BitVec 4) (dir : BitVec 2) (tile : Code) (sel : Sel) (imm : BitVec 16) :
    assembleWord op dir tile sel imm = imm ++ sel ++ tile ++ 0#2 ++ dir ++ op := by
  refine word_ext fun k hk => ?_
  rw [getLsbD_assembleWord _ _ _ _ _ hk]
  have hgap : 6 ≤ k → dir.getLsbD (k - 4) = false := fun h => BitVec.getLsbD_of_ge dir _ (by omega)
  simp only [BitVec.getLsbD_append, BitVec.getLsbD_zero]
  grind

theorem toNat_append_eq_add {m n : Nat} (x : BitVec m) (y : BitVec n) :
    (x ++ y).toNat = x.toNat * 2 ^ n + y.toNat := by
  rw [BitVec.toNat_append, ← Nat.shiftLeft_add_eq_or_of_lt y.isLt, Nat.shiftLeft_eq]

/-- So their OR is their sum. -/
theorem assembleWord_eq_ofNat (op : BitVec 4) (dir : BitVec 2) (tile : Code) (sel : Sel) (imm : BitVec 16) :
    assembleWord op dir tile sel imm = BitVec.ofNat 32
      (op.toNat + dir.toNat * 2 ^ 4 + tile.toNat * 2 ^ 8 + sel.toNat * 2 ^ 12 + imm.toNat * 2 ^ 16) := by
  have hop := op.isLt; have hdir := dir.isLt; have htile := tile.isLt; have hsel := sel.isLt; have himm := imm.isLt
  apply BitVec.eq_of_toNat_eq
  rw [assembleWord_eq_append]
  simp only [toNat_append_eq_add, BitVec.toNat_ofNat]
  omega

end Sys2Proof

namespace Sys2Proof.Machine

/-! ### Operands -/

theorem fitField_of_lt {w n : Nat} (h : n < 2 ^ w) : fitField w n = some (BitVec.ofNat w n) := if_pos h

/-- An operand that does not fit is refused (R93). -/
theorem fitField_of_le {w n : Nat} (h : 2 ^ w ≤ n) : fitField w n = none := if_neg (Nat.not_lt.mpr h)

theorem fitDir_number_of_le {n : Nat} (h : 4 ≤ n) : fitDir (.number n) = none := by
  rw [fitDir, fitField_of_le h]; rfl

theorem toNat_ofNat_of_lt {w n : Nat} (h : n < 2 ^ w) : (BitVec.ofNat w n).toNat = n := by
  rw [BitVec.toNat_ofNat, Nat.mod_eq_of_lt h]

/-- SWIPE is assembled when its three operands fit. -/
theorem assembleSwipe_eq_bind (dir : DirOperand) (tile sel : Nat) :
    assembleSwipe dir tile sel =
      (fitDir dir).bind fun d => (fitField 4 tile).bind fun t => (fitField 4 sel).map (.swipe d t) := by
  unfold assembleSwipe
  cases fitDir dir <;> cases fitField 4 tile <;> cases fitField 4 sel <;> rfl

theorem assembleLutRead_eq_bind (dir : DirOperand) (index : Nat) :
    assembleLutRead dir index = (fitDir dir).bind fun d => (fitField 16 index).map (.lutRead d) := by
  unfold assembleLutRead
  cases fitDir dir <;> cases fitField 16 index <;> rfl

/-- Bit 0 of READ_STATUS's answer is READY, so WAIT_READY repeats while that is 0 (R94). -/
theorem waitReadyAgain_statusWord (s : State) :
    waitReadyAgain (s.statusWord.setWidth 64) = !s.status.ready := by
  have hready : s.statusWord.getLsbD 0 = s.status.ready :=
    getLsbD_of_extractLsb'_eq_flagBit (extractLsb'_statusWord s).1
  rw [waitReadyAgain, BitVec.getLsbD_setWidth, hready]
  rfl

/-- Settles O6: with operands that fit the word is the sum of its fields; one that does not fit leaves no
instruction. -/
theorem assemblerWordsAndRefusals : Obligations.AssemblerWordsAndRefusals := by
  refine ⟨rfl, fun b hb => ?load, rfl, fun d t r ht hr => ?swipe, rfl, fun f hf => ?encode, fun c hc => ?decode, rfl,
    fun d n hn => ?lutRead, fun d t r h => ?swipeNone, fun c hc => ?decodeNone, fun f hf => ?encodeNone,
    fun d n hn => ?lutReadNone, fun b hb => ?loadNone, fun k hk => ⟨fun t r => ?swipeDir, fun n => ?lutReadDir⟩,
    rfl, rfl, fun _ => rfl, fun _ _ => rfl, fun s t x h hp => ?wait⟩
  case load => rw [assemble, fitField_of_lt hb]; rfl
  case swipe =>
    rw [assemble, assembleSwipe_eq_bind, fitField_of_lt (w := 4) ht, fitField_of_lt (w := 4) hr]
    refine congrArg some ((assembleWord_eq_ofNat ..).trans ?_)
    rw [toNat_ofNat_of_lt (w := 4) ht, toNat_ofNat_of_lt (w := 4) hr]
    rfl
  case encode =>
    rw [assemble, fitField_of_lt (w := 16) hf]
    refine congrArg some ((assembleWord_eq_ofNat ..).trans ?_)
    rw [toNat_ofNat_of_lt (w := 16) hf]
    rfl
  case decode =>
    rw [assemble, fitField_of_lt (w := 4) hc]
    refine congrArg some ((assembleWord_eq_ofNat ..).trans ?_)
    rw [toNat_ofNat_of_lt (w := 4) hc]
    rfl
  case lutRead =>
    rw [assemble, assembleLutRead_eq_bind, fitField_of_lt (w := 16) hn]
    refine congrArg some ((assembleWord_eq_ofNat ..).trans ?_)
    rw [toNat_ofNat_of_lt (w := 16) hn]
    rfl
  case swipeNone =>
    rw [assemble, assembleSwipe_eq_bind]
    obtain ht | hr := h
    · simp [fitField_of_le (w := 4) ht]
    · simp [fitField_of_le (w := 4) hr]
  case decodeNone => rw [assemble, fitField_of_le (w := 4) hc]; rfl
  case encodeNone => rw [assemble, fitField_of_le (w := 16) hf]; rfl
  case lutReadNone => simp [assemble, assembleLutRead_eq_bind, fitField_of_le (w := 16) hn]
  case loadNone => rw [assemble, fitField_of_le hb]; rfl
  case swipeDir => rw [assemble, assembleSwipe_eq_bind, fitDir_number_of_le hk]; rfl
  case lutReadDir => rw [assemble, assembleLutRead_eq_bind, fitDir_number_of_le hk]; rfl
  case wait => cases h; cases hp; exact waitReadyAgain_statusWord s

end Sys2Proof.Machine
end

section
/-! What commands answer and what they write (R37, R90, R160, R220, R227, R237): every command ends with a response,
the writers of each piece of state, the state that an answer depends on, and the obligations about them. -/

namespace Sys2Proof.Machine

/-! ### Every command ends with a response -/

/-- No command stops the machine (R229, R237). -/
theorem exec_total (i : Instr) (s : State) : ∃ t, exec i s = .next t := by
  cases i with
  | loadBoard _ | score | decode _ | lutRead _ _ => exact ⟨_, (apply_ite Host.Outcome.next ..).symm⟩
  | encode f =>
    cases hf : s.status.fault with
    | true => exact ⟨_, exec_of_fault rfl hf⟩
    | false =>
      cases hc : codeOf f with
      | none => exact ⟨_, exec_encode_of_none hf hc⟩
      | some c => exact ⟨_, exec_encode_of_some hf hc⟩
  | swipe d t r =>
    obtain ⟨-, he⟩ | ⟨-, -, he⟩ | ⟨-, -, -, he⟩ | ⟨-, -, -, -, he⟩ | ⟨-, -, -, -, he⟩ := execSwipe_cases d t r s
    all_goals exact ⟨_, he⟩
  | _ => exact ⟨_, rfl⟩

/-- The errors are those with a name (R220). -/
theorem ne_reserved_of_raisesFor {i : Instr} {s : State} {e : ErrCode} (h : RaisesFor i s e) (k : Fin 10) :
    e ≠ .reserved k := by
  obtain ⟨rfl, -⟩ | ⟨rfl, -⟩ | ⟨rfl, -⟩ | ⟨rfl, -⟩ | ⟨rfl, -⟩ := h
  all_goals exact nofun

/-- Every command leaves a response on the bus, with no reserved code (R220, R237). -/
theorem exec_responds {i : Instr} {s t : State} (h : exec i s = .next t) :
    ∃ e x, t.port = .respond e x ∧ ∀ k, e ≠ .reserved k := by
  obtain ⟨e, he, rfl⟩ | ⟨-, x, rfl⟩ | ⟨-, x, rfl⟩ | ⟨v, -, -, rfl⟩ | ⟨d, tl, r, -, -, -, -, -, rfl⟩ |
    ⟨d, tl, r, -, -, -, -, -, rfl⟩ := exec_cases h
  case inl => exact ⟨e, 0, rfl, ne_reserved_of_raisesFor he⟩
  all_goals exact ⟨.ok, _, rfl, nofun⟩

/-- Settles O46: a command is total, and each of its ends is a response. -/
theorem everyCommandAnswers : Obligations.EveryCommandAnswers := by
  intro i s
  obtain ⟨t, h⟩ := exec_total i s
  obtain ⟨e, x, hp⟩ := exec_responds h
  exact ⟨t, e, x, h, hp⟩

/-- Settles O44: the reserved rows are the instructions that are not well formed. -/
theorem reservedOpcodesAnswerIllegalCommand : Obligations.ReservedOpcodesAnswerIllegalCommand := by
  intro rest s i hi
  have hw : i.wellFormed = false := by
    simp only [List.mem_cons, List.not_mem_nil, or_false] at hi
    obtain rfl | rfl | rfl | rfl | rfl | rfl | rfl := hi <;> rfl
  exact exec_of_not_wellFormed hw s

/-! ### STATUS -/

/-- Only a SWIPE that may run and reads an invalid entry writes FAULT (R226). -/
theorem exec_changes_fault {i : Instr} {s t : State} (h : exec i s = .next t)
    (hne : t.status.fault ≠ s.status.fault) :
    commandReady s = true ∧ t.status.fault = true ∧ t.status.lastErr = .lutMiss ∧ ∃ d tl r, i = .swipe d tl r := by
  obtain ⟨e, he, rfl⟩ | ⟨-, x, rfl⟩ | ⟨-, x, rfl⟩ | ⟨v, -, -, rfl⟩ | ⟨d, tl, r, -, -, -, -, -, rfl⟩ |
    ⟨d, tl, r, -, -, -, -, -, rfl⟩ := exec_cases h
  case inl =>
    obtain ⟨rfl, -⟩ | ⟨rfl, -⟩ | ⟨rfl, -⟩ | ⟨rfl, -⟩ | ⟨rfl, -, hr, d, tl, r, hi, -⟩ := he
    case inr.inr.inr.inr => exact ⟨hr, rfl, rfl, d, tl, r, hi⟩
    all_goals exact absurd rfl hne
  all_goals exact absurd rfl hne

/-- An error, and every command but LOAD_BOARD and SWIPE, leaves the move report (R37, R223). -/
theorem exec_keeps_report {i : Instr} {s t : State} (h : exec i s = .next t)
    (hi : t.status.lastErr ≠ .ok ∨ ((∀ v, i ≠ .loadBoard v) ∧ ∀ d tl r, i ≠ .swipe d tl r)) :
    t.status = { s.status with lastErr := t.status.lastErr, fault := t.status.fault } := by
  obtain ⟨e, -, rfl⟩ | ⟨-, x, rfl⟩ | ⟨-, x, rfl⟩ | ⟨v, hv, -, rfl⟩ | ⟨d, tl, r, hs, -, -, -, -, rfl⟩ |
    ⟨d, tl, r, hs, -, -, -, -, rfl⟩ := exec_cases h
  case inr.inr.inr.inl => exact (hi.resolve_left (not_not_intro rfl)).1 v hv |>.elim
  case inr.inr.inr.inr.inl => exact (hi.resolve_left (not_not_intro rfl)).2 d tl r hs |>.elim
  case inr.inr.inr.inr.inr => exact (hi.resolve_left (not_not_intro rfl)).2 d tl r hs |>.elim
  all_goals rfl

/-- An OK LOAD_BOARD clears the move report (R183). -/
theorem exec_loadBoard_status {v : Board} {s t : State} (h : exec (.loadBoard v) s = .next t)
    (hok : t.status.lastErr = .ok) : t.status = { s.status.clearReport with lastErr := .ok } := by
  cases hf : s.status.fault with
  | true => cases (exec_of_fault rfl hf).symm.trans h; cases hok
  | false => cases (exec_loadBoard_of_no_fault v hf).symm.trans h; rfl

/-- An OK SWIPE reports its direction, and a change exactly when the candidate board is another one (R193, R194). -/
theorem exec_swipe_reports {d : Dir} {tl : Code} {r : Sel} {s t : State} (h : exec (.swipe d tl r) s = .next t)
    (hok : t.status.lastErr = .ok) :
    t.status.lastDir = d ∧ t.status.changed = decide (candidate d s ≠ s.board) := by
  obtain ⟨-, he⟩ | ⟨-, -, he⟩ | ⟨-, -, -, he⟩ | ⟨-, -, -, hc, he⟩ | ⟨-, -, -, hc, he⟩ := execSwipe_cases d tl r s
  all_goals cases he.symm.trans h
  case inr.inr.inr.inl => exact ⟨rfl, (decide_eq_false (not_not_intro hc)).symm⟩
  case inr.inr.inr.inr => exact ⟨rfl, (decide_eq_true hc).symm⟩
  all_goals cases hok

/-- Settles O52: each field's writers are read off the ends of the commands. -/
theorem statusFieldsHaveTheirWriters : Obligations.StatusFieldsHaveTheirWriters := by
  intro i s t h
  refine ⟨(exec_sameBuild h).ready, fun hne => (exec_changes_fault h hne).2, exec_keeps_report h, ?load, ?swipe,
    ?left, fun ⟨hn, hr⟩ => exec_writes_lastErr h hn hr⟩
  case load => rintro v rfl hok; exact exec_loadBoard_status h hok
  case swipe => rintro d tl r rfl hok; exact exec_swipe_reports h hok
  case left => rintro (rfl | rfl) <;> cases h <;> rfl

/-! ### BOARD, HIGHEST and the tables -/

theorem exec_inputs {i : Instr} {s t : State} (h : exec i s = .next t) : t.inputs = s.inputs := by
  obtain ⟨e, -, rfl⟩ | ⟨-, x, rfl⟩ | ⟨-, x, rfl⟩ | ⟨v, -, -, rfl⟩ | ⟨d, tl, r, -, -, -, -, -, rfl⟩ |
    ⟨d, tl, r, -, -, -, -, -, rfl⟩ := exec_cases h
  all_goals rfl

/-- Only an OK LOAD_BOARD and an OK SWIPE that changes the board write BOARD and HIGHEST (R32, R35). -/
theorem exec_changes_board {i : Instr} {s t : State} (h : exec i s = .next t)
    (hne : t.board ≠ s.board ∨ t.highest ≠ s.highest) :
    t.status.lastErr = .ok ∧ ((∃ v, i = .loadBoard v ∧ t.board = v) ∨
      (∃ d tl r, i = .swipe d tl r ∧ t.status.changed = true)) := by
  obtain ⟨e, -, rfl⟩ | ⟨-, x, rfl⟩ | ⟨-, x, rfl⟩ | ⟨v, hv, -, rfl⟩ | ⟨d, tl, r, -, -, -, -, -, rfl⟩ |
    ⟨d, tl, r, hs, -, -, -, -, rfl⟩ := exec_cases h
  case inr.inr.inr.inl => exact ⟨rfl, .inl ⟨v, hv, rfl⟩⟩
  case inr.inr.inr.inr.inr => exact ⟨rfl, .inr ⟨d, tl, r, hs, rfl⟩⟩
  all_goals exact (not_or.mpr ⟨not_not_intro rfl, not_not_intro rfl⟩ hne).elim

/-- Settles O53: no command touches the build or the model's own fields, and two write the board. -/
theorem boardHighestAndTablesHaveTheirWriters : Obligations.BoardHighestAndTablesHaveTheirWriters := by
  intro i s t h
  have hsame : SameBuild s t := exec_sameBuild h
  exact ⟨hsame.sameTables, hsame.lut, hsame.builder, exec_inputs h, hsame.epoch, exec_changes_board h⟩

/-! ### Which commands are allowed (R227) -/

/-- The commands that R227 lets run, READY being `commandReady`. -/
def Allowed (i : Instr) (s : State) : Prop :=
  i = .nop ∨ i = .readBoard ∨ i = .readStatus ∨
    (s.status.fault = false ∧ ((∃ v, i = .loadBoard v) ∨ i = .score ∨ (∃ f, i = .encode f) ∨ ∃ c, i = .decode c)) ∨
    (commandReady s = true ∧ ∃ d n, i = .lutRead d n) ∨
    (commandReady s = true ∧ s.status.fault = false ∧ ∃ d t r, i = .swipe d t r)

/-- The command ends without FAULTED and NOT_READY. -/
def Runs (i : Instr) (s : State) : Prop :=
  ∃ t e x, exec i s = .next t ∧ t.port = .respond e x ∧ e ≠ .faulted ∧ e ≠ .notReady

theorem runs_of_exec_eq {i : Instr} {s t : State} {e : ErrCode} {x : Data} (h : exec i s = .next t)
    (hp : t.port = .respond e x) (he : e ≠ .faulted ∧ e ≠ .notReady) : Runs i s :=
  ⟨t, e, x, h, hp, he⟩

theorem runs_encode (f : Face) {s : State} (hf : s.status.fault = false) : Runs (.encode f) s := by
  cases hc : codeOf f with
  | none => exact runs_of_exec_eq (exec_encode_of_none hf hc) rfl ⟨nofun, nofun⟩
  | some c => exact runs_of_exec_eq (exec_encode_of_some hf hc) rfl ⟨nofun, nofun⟩

/-- A SWIPE that may run ends with LUT_MISS or OK (R190). -/
theorem runs_swipe (d : Dir) (t : Code) (r : Sel) {s : State} (hf : s.status.fault = false)
    (hr : commandReady s = true) : Runs (.swipe d t r) s := by
  obtain ⟨hf', -⟩ | ⟨-, hr', -⟩ | ⟨-, -, -, he⟩ | ⟨-, -, -, -, he⟩ | ⟨-, -, -, -, he⟩ := execSwipe_cases d t r s
  · cases hf.symm.trans hf'
  · cases hr.symm.trans hr'
  all_goals exact runs_of_exec_eq he rfl ⟨nofun, nofun⟩

theorem runs_of_allowed {i : Instr} {s : State} (h : Allowed i s) : Runs i s := by
  obtain rfl | rfl | rfl | ⟨hf, ⟨v, rfl⟩ | rfl | ⟨f, rfl⟩ | ⟨c, rfl⟩⟩ | ⟨hr, d, n, rfl⟩ | ⟨hr, hf, d, t, r, rfl⟩ := h
  · exact runs_of_exec_eq rfl rfl ⟨nofun, nofun⟩
  · exact runs_of_exec_eq rfl rfl ⟨nofun, nofun⟩
  · exact runs_of_exec_eq rfl rfl ⟨nofun, nofun⟩
  · exact runs_of_exec_eq (exec_loadBoard_of_no_fault v hf) rfl ⟨nofun, nofun⟩
  · exact runs_of_exec_eq (exec_score_of_no_fault hf) rfl ⟨nofun, nofun⟩
  · exact runs_encode f hf
  · exact runs_of_exec_eq (exec_decode_of_no_fault c hf) rfl ⟨nofun, nofun⟩
  · exact runs_of_exec_eq (exec_lutRead_of_ready d n hr) rfl ⟨nofun, nofun⟩
  · exact runs_swipe d t r hf hr

/-- FAULT = 1 only with READY = 1 (R227). -/
def FaultNeedsReady (s : State) : Prop := s.status.fault = true → s.status.ready = true

/-- A command that sets FAULT has found READY = 1, and none clears it. -/
theorem exec_faultNeedsReady {i : Instr} {s t : State} (hs : FaultNeedsReady s) (h : exec i s = .next t) :
    FaultNeedsReady t := by
  intro hf
  rw [(exec_sameBuild h).ready]
  by_cases heq : t.status.fault = s.status.fault
  · exact hs (heq.symm.trans hf)
  · exact ready_of_commandReady (exec_changes_fault h heq).1

theorem portEdge_faultNeedsReady {p : Pins} {s t : State} (hs : FaultNeedsReady s) (h : portEdge p s = .next t) :
    FaultNeedsReady t := by
  obtain ⟨-, -, rfl⟩ | ⟨-, -, rfl⟩ | ⟨w, x, r, -, hc⟩ | ⟨w, x, k, r, -, rfl⟩ | ⟨e, x, -, -, rfl⟩ |
    ⟨e, x, -, -, rfl⟩ := portEdge_cases h
  case inr.inr.inl =>
    obtain ⟨i, -, hi⟩ | ⟨e, -, rfl⟩ := runCommand_cases hc
    · exact exec_faultNeedsReady hs hi
    · exact hs
  all_goals exact hs

/-- An edge keeps it: the builder only raises READY. -/
theorem step_faultNeedsReady {s t : State} (hs : FaultNeedsReady s) (h : step s = .next t) : FaultNeedsReady t := by
  obtain ⟨-, rfl⟩ | ⟨-, u, hu, rfl⟩ := step_cases h
  · exact nofun
  · intro hf
    have hu : FaultNeedsReady u := portEdge_faultNeedsReady (s := dropPins s) hs hu
    rw [builderEdge_ready, hu hf, Bool.true_or]

/-- Settles O50: the refused set with FAULT = 1, the commands that need the tables before READY, every other
entry, and the step lemma for FAULT. -/
theorem commandsAllowedByReadyAndFault : Obligations.CommandsAllowedByReadyAndFault := by
  refine ⟨fun s i hf hi => ⟨_, exec_of_fault ?refused hf, rfl⟩, fun s i hf hr hi => ?notReady,
    fun s i _ hi => runs_of_allowed hi, fun s t => step_faultNeedsReady⟩
  case refused => obtain ⟨_, rfl⟩ | ⟨_, _, _, rfl⟩ | rfl | ⟨_, rfl⟩ | ⟨_, rfl⟩ := hi <;> rfl
  case notReady =>
    obtain ⟨d, t, r, rfl⟩ | ⟨d, n, rfl⟩ := hi
    · exact ⟨_, exec_swipe_of_not_ready t r hf hr, rfl⟩
    · exact ⟨_, exec_lutRead_of_not_ready d n hr, rfl⟩

/-! ### What an answer depends on -/

/-- Two states of which the host sees the same: BOARD, HIGHEST, STATUS and the response. -/
structure SameView (t t' : State) : Prop where
  board : t.board = t'.board
  highest : t.highest = t'.highest
  status : t.status = t'.status
  port : t.port = t'.port

/-- Two outcomes of which the host sees the same. -/
def SameEnd (a a' : Result) : Prop := ∀ t t', a = .next t → a' = .next t' → SameView t t'

theorem sameEnd_next {u u' : State} (h : SameView u u') : SameEnd (.next u) (.next u') := by
  rintro t t' ⟨⟩ ⟨⟩; exact h

theorem sameEnd_ite {c : Prop} [Decidable c] {a a' b b' : Result} (ha : SameEnd a a') (hb : SameEnd b b') :
    SameEnd (if c then a else b) (if c then a' else b') := by
  split
  · exact ha
  · exact hb

/-- Each command tests and writes the visible state; SWIPE and LUT_READ read the tables, which both states have
built. -/
theorem exec_sameEnd (i : Instr) {s s' : State} (ht : TablesBuilt s) (ht' : TablesBuilt s')
    (hb : s.board = s'.board) (hh : s.highest = s'.highest) (hs : s.status = s'.status)
    (hr : commandReady s = commandReady s') : SameEnd (exec i s) (exec i s') := by
  have hcand : ∀ d, candidate d s = candidate d s' := fun d => by
    rw [candidate_of_built ht, candidate_of_built ht', hb]
  have hraise : ∀ e, SameEnd (.next (raise e s)) (.next (raise e s')) := fun e =>
    sameEnd_next ⟨hb, hh, by simp only [raise, respond_status, hs], rfl⟩
  have hcomplete : ∀ x, SameEnd (.next (complete x s)) (.next (complete x s')) := fun x =>
    sameEnd_next ⟨hb, hh, by simp only [complete, setLastErr, respond_status, hs], rfl⟩
  cases i with
  | nop => exact sameEnd_next ⟨hb, hh, hs, rfl⟩
  | readStatus =>
    exact sameEnd_next ⟨hb, hh, hs, by simp only [respond_port, statusWord_congr hh hs]⟩
  | readBoard => simpa only [exec, execReadBoard, hb] using hcomplete s'.board
  | loadBoard v =>
    simp only [exec, execLoadBoard, hs]
    exact sameEnd_ite (hraise _)
      (sameEnd_next ⟨rfl, rfl, by simp only [complete, setLastErr, loadBoard, respond_status, hs], rfl⟩)
  | score =>
    simp only [exec, execScore, hs, hb]
    exact sameEnd_ite (hraise _) (hcomplete _)
  | decode c =>
    simp only [exec, execDecode, hs]
    exact sameEnd_ite (hraise _) (hcomplete _)
  | encode f =>
    simp only [exec, execEncode, hs]
    refine sameEnd_ite (hraise _) ?_
    split
    · exact hcomplete _
    · exact hraise _
  | lutRead d n =>
    simp only [exec, execLutRead, hr, ht d n, ht' d n]
    exact sameEnd_ite (hcomplete _) (hraise _)
  | swipe d t r =>
    simp only [exec, execSwipe, hs, hr, hcand, hb, lookupsValid_of_built ht, lookupsValid_of_built ht']
    refine sameEnd_ite (hraise _) (sameEnd_ite (hraise _) (sameEnd_ite (hraise _) (sameEnd_ite ?noop ?commit)))
    case noop =>
      exact sameEnd_next ⟨hb, hh, by simp only [swipeNoop, complete, setLastErr, respond_status, hs],
        congrArg (Port.respond .ok) hb⟩
    case commit =>
      exact sameEnd_next ⟨rfl, by simp only [swipeCommit_highest, hh],
        by simp only [swipeCommit, complete, setLastErr, respond_status, hs], rfl⟩
  | _ => exact hraise _

/-- Settles O54: the two ends agree. -/
theorem commandsSeeOnlyTheVisibleState : Obligations.CommandsSeeOnlyTheVisibleState := by
  intro i s s' t t' ht ht' hb hh hs hr h h'
  obtain ⟨hboard, hhighest, hstatus, hport⟩ := exec_sameEnd i ht ht' hb hh hs hr t t' h h'
  exact ⟨hboard, hhighest, hstatus, hport⟩

end Sys2Proof.Machine
end

section
/-! Edges and runs of them (R74, R81, R236, R237, R251, R263): what the port and the builder do at one edge, an
accepted command until its response, the build until READY, and the obligations about them. -/

namespace Sys2Proof.Machine

/-! ### The port at one edge -/

theorem portEdge_of_idle_offered {p : Pins} {s : State} (hp : s.port = .idle) (hv : p.cmdValid = true) :
    portEdge p s = .next { s with port := .busy p.cmdWord p.cmdData (Config.cmdExtra (opField p.cmdWord))
                                            s.status.ready } := by
  simp only [portEdge, hp, hv, if_true]

theorem portEdge_of_idle_quiet {p : Pins} {s : State} (hp : s.port = .idle) (hv : p.cmdValid = false) :
    portEdge p s = .next s := by
  simp only [portEdge, hp, hv, Bool.false_eq_true, if_false]

theorem portEdge_of_waiting (p : Pins) {s : State} {w : CmdWord} {x : Data} {k : Nat} {r : Bool}
    (hp : s.port = .busy w x (k + 1) r) : portEdge p s = .next { s with port := .busy w x k r } := by
  simp only [portEdge, hp]

theorem portEdge_of_waited (p : Pins) {s : State} {w : CmdWord} {x : Data} {r : Bool}
    (hp : s.port = .busy w x 0 r) : portEdge p s = runCommand w x s := by
  simp only [portEdge, hp]

theorem portEdge_of_respond (p : Pins) {s : State} {e : ErrCode} {x : Data} (hp : s.port = .respond e x) :
    portEdge p s = .next (if p.rspReady then { s with port := .idle } else s) := by
  simp only [portEdge, hp, apply_ite Host.Outcome.next]

/-- Outside IDLE the port looks at `rsp_ready` alone (R263). -/
theorem portEdge_congr_of_not_idle {p p' : Pins} {s : State} (hp : s.port ≠ .idle) (hr : p.rspReady = p'.rspReady) :
    portEdge p s = portEdge p' s := by
  cases h : s.port with
  | idle => exact absurd h hp
  | busy w x k r =>
    cases k with
    | zero => rw [portEdge_of_waited p h, portEdge_of_waited p' h]
    | succ k => rw [portEdge_of_waiting p h, portEdge_of_waiting p' h]
  | respond e x => rw [portEdge_of_respond p h, portEdge_of_respond p' h, hr]

/-- Settles O7: a port whose wait is over runs the accepted word, and the builder works after it. -/
theorem stepRunsTheDecodedCommand : Obligations.StepRunsTheDecodedCommand := by
  intro s w x r hp hrst
  have hport : portEdge (nextPins s) (dropPins s) = runCommand w x (dropPins s) := portEdge_of_waited _ hp
  refine ⟨fun i hd => ?decoded, fun e hd => ?rejected⟩
  case decoded =>
    obtain ⟨t, ht⟩ := exec_total i (dropPins s)
    exact ⟨t, ht, step_of_portEdge hrst (hport.trans ((runCommand_of_decode hd _).trans ht))⟩
  case rejected => exact step_of_portEdge hrst (hport.trans (runCommand_of_error hd _))

theorem nextPins_of_cons {s : State} {p : Pins} {rest : List Pins} (h : s.inputs = p :: rest) : nextPins s = p := by
  rw [nextPins, h]; rfl

theorem dropPins_of_cons {s : State} {p : Pins} {rest : List Pins} (h : s.inputs = p :: rest) :
    dropPins s = { s with inputs := rest } := by
  rw [dropPins, h]; rfl

/-- An edge with `rst` = 0 whose pins are known. -/
theorem step_of_cons {s u : State} {p : Pins} {rest : List Pins} (hin : s.inputs = p :: rest) (hrst : p.rst = false)
    (h : portEdge p { s with inputs := rest } = .next u) : step s = .next (builderEdge u) := by
  refine step_of_portEdge ?_ ?_
  · rwa [nextPins_of_cons hin]
  · rwa [nextPins_of_cons hin, dropPins_of_cons hin]

/-- Settles O8: the port's work in IDLE, with an offer and without. -/
theorem idlePortAcceptsOfferedCommand : Obligations.IdlePortAcceptsOfferedCommand := by
  refine fun s p rest hp hin hrst => ⟨fun hv => ⟨?ready, ?offered⟩, fun hv => ?quiet⟩
  case ready => simp only [cmdReady, hp, hrst, decide_true, Bool.not_false, Bool.and_self]
  case offered => exact step_of_cons hin hrst (portEdge_of_idle_offered hp hv)
  case quiet => exact step_of_cons hin hrst (portEdge_of_idle_quiet hp hv)

/-- Settles O9: the port's work in RESPOND. -/
theorem responseIsHeldUntilTaken : Obligations.ResponseIsHeldUntilTaken := by
  intro s e x p rest hp hin hrst
  have hstep := step_of_cons hin hrst (portEdge_of_respond p hp)
  refine ⟨?notReady, ?response, fun hr => ?held, fun hr => ?taken⟩
  case notReady => simp [cmdReady, hp]
  case response => simp only [response, hp]
  case held => simpa only [hr, Bool.false_eq_true, if_false] using hstep
  case taken => simpa only [hr, if_true] using hstep

/-- Settles O10: outside IDLE the edge looks at `rst` and `rsp_ready` alone. -/
theorem commandPinsIgnoredOutsideIdle : Obligations.CommandPinsIgnoredOutsideIdle := by
  intro s p p' rest hp hrst hr
  have hport : portEdge p { s with inputs := rest } = portEdge p' { s with inputs := rest } :=
    portEdge_congr_of_not_idle hp hr
  have hstep : ∀ q : Pins, step { s with inputs := q :: rest } =
      if q.rst then .next (resetEdge { s with inputs := rest })
      else withBuilder (portEdge q { s with inputs := rest }) := fun q => rfl
  rw [hstep, hstep, hport, hrst]

/-! ### One edge -/

theorem runCommand_total (w : CmdWord) (x : Data) (s : State) : ∃ t, runCommand w x s = .next t := by
  cases hd : decode w x with
  | ok i => rw [runCommand_of_decode hd]; exact exec_total i s
  | error e => exact ⟨_, runCommand_of_error hd s⟩

theorem runCommand_responds {w : CmdWord} {x : Data} {s t : State} (h : runCommand w x s = .next t) :
    ∃ e y, t.port = .respond e y := by
  obtain ⟨i, -, hi⟩ | ⟨-, -, rfl⟩ := runCommand_cases h
  · obtain ⟨e, y, hp, -⟩ := exec_responds hi
    exact ⟨e, y, hp⟩
  · exact ⟨_, _, rfl⟩

theorem portEdge_total (p : Pins) (s : State) : ∃ t, portEdge p s = .next t := by
  cases hp : s.port with
  | idle =>
    cases hv : p.cmdValid with
    | true => exact ⟨_, portEdge_of_idle_offered hp hv⟩
    | false => exact ⟨_, portEdge_of_idle_quiet hp hv⟩
  | busy w x k r =>
    cases k with
    | zero => rw [portEdge_of_waited p hp]; exact runCommand_total w x s
    | succ k => exact ⟨_, portEdge_of_waiting p hp⟩
  | respond e x => exact ⟨_, portEdge_of_respond p hp⟩

/-- Every edge leads to a state (R229, R237). -/
theorem step_total (s : State) : ∃ t, step s = .next t := by
  cases hrst : (nextPins s).rst with
  | true => exact ⟨_, step_of_rst hrst⟩
  | false =>
    obtain ⟨u, hu⟩ := portEdge_total (nextPins s) (dropPins s)
    exact ⟨_, step_of_portEdge hrst hu⟩

theorem portEdge_inputs {p : Pins} {s t : State} (h : portEdge p s = .next t) : t.inputs = s.inputs := by
  obtain ⟨-, -, rfl⟩ | ⟨-, -, rfl⟩ | ⟨w, x, r, -, hc⟩ | ⟨w, x, k, r, -, rfl⟩ | ⟨e, x, -, -, rfl⟩ |
    ⟨e, x, -, -, rfl⟩ := portEdge_cases h
  case inr.inr.inl =>
    obtain ⟨i, -, hi⟩ | ⟨-, -, rfl⟩ := runCommand_cases hc
    · exact exec_inputs hi
    · rfl
  all_goals rfl

/-- An edge uses up one edge's inputs (log 2). -/
theorem step_inputs {s t : State} (h : step s = .next t) : t.inputs = s.inputs.tail := by
  obtain ⟨-, rfl⟩ | ⟨-, u, hu, rfl⟩ := step_cases h
  · rfl
  · exact portEdge_inputs hu

/-! ### Runs of edges -/

theorem edges_of_step {s t : State} (h : step s = .next t) (k : Nat) : edges (k + 1) s = edges k t := by
  rw [edges, h]

theorem edges_one_of_step {s t : State} (h : step s = .next t) : edges 1 s = .next t := edges_of_step h 0

/-- Two runs, one after the other, are one. -/
theorem edges_append {k : Nat} {s u : State} (h : edges k s = .next u) (j : Nat) : edges (k + j) s = edges j u := by
  induction k generalizing s with
  | zero => cases h; rw [Nat.zero_add]
  | succ k ih =>
    obtain ⟨t, ht⟩ := step_total s
    rw [edges_of_step ht] at h
    rw [Nat.succ_add, edges_of_step ht, ih h]

/-- `rst` stays low for one more edge: it is low at the next edge, and then stays low. -/
theorem resetLow_succ_iff {k : Nat} {s : State} :
    ResetLow (k + 1) s ↔ (nextPins s).rst = false ∧ ResetLow k (dropPins s) := by
  obtain ⟨_, _, _, _, _, _, _ | ⟨p, rest⟩, _⟩ := s
  · simp [ResetLow, nextPins, dropPins, Pins.quiet]
  · simp [ResetLow, nextPins, dropPins]

theorem resetLow_of_inputs_eq {k : Nat} {s t : State} (h : t.inputs = s.inputs) (hs : ResetLow k s) :
    ResetLow k t := by
  rwa [ResetLow, h]

/-- What is left of the time that `rst` is low after an edge. -/
theorem resetLow_of_step {k : Nat} {s t : State} (hlow : ResetLow (k + 1) s) (h : step s = .next t) :
    ResetLow k t :=
  resetLow_of_inputs_eq (s := dropPins s) (step_inputs h) (resetLow_succ_iff.mp hlow).2

theorem rst_of_resetLow {k : Nat} {s : State} (h : ResetLow (k + 1) s) : (nextPins s).rst = false :=
  (resetLow_succ_iff.mp h).1

/-- With the build done and nothing driven an edge changes nothing (R236). -/
theorem step_of_idle {s : State} (hp : s.port = .idle) (hin : s.inputs = []) (hr : s.status.ready = true) :
    step s = .next s := by
  have hpins : nextPins s = Pins.quiet := by rw [nextPins, hin]; rfl
  have hdrop : dropPins s = s := by
    rw [dropPins, hin, List.tail_nil, ← hin]
  have hport : portEdge (nextPins s) (dropPins s) = .next s := by
    rw [hdrop, hpins]; exact portEdge_of_idle_quiet hp rfl
  have hrst : (nextPins s).rst = false := by rw [hpins]; rfl
  rw [step_of_portEdge hrst hport, builderEdge_of_ready hr]

/-- Settles O13: by induction on the number of edges. -/
theorem idleMachineHoldsItsState : Obligations.IdleMachineHoldsItsState := by
  intro k s hp hin hr
  induction k with
  | zero => rfl
  | succ k ih => rw [edges_of_step (step_of_idle hp hin hr), ih]

/-! ### From a command's acceptance to its response -/

/-- The game and STATUS are as before, but that READY may have risen. -/
structure Untouched (s u : State) : Prop where
  board : u.board = s.board
  highest : u.highest = s.highest
  status : u.status = { s.status with ready := u.status.ready }
  ready : s.status.ready = true → u.status.ready = true

theorem Untouched.refl (s : State) : Untouched s s := ⟨rfl, rfl, rfl, id⟩

theorem Untouched.trans {s u v : State} (h : Untouched s u) (h' : Untouched u v) : Untouched s v :=
  ⟨h'.board.trans h.board, h'.highest.trans h.highest, by rw [h'.status, h.status], fun hr => h'.ready (h.ready hr)⟩

/-- The builder's edge touches READY and the tables alone, so an edge at which the port takes or holds a command
leaves the rest. -/
theorem untouched_builderEdge (s : State) (pins : List Pins) (p : Port) :
    Untouched s (builderEdge { s with inputs := pins, port := p }) :=
  ⟨rfl, rfl, rfl, fun hr => by rw [builderEdge_ready, hr, Bool.true_or]⟩

/-- A held command waits its edges out (R81); `m` more edges with `rst` low are left then. -/
theorem edges_of_waiting {w : CmdWord} {x : Data} {r : Bool} (m : Nat) {k : Nat} {s : State}
    (hp : s.port = .busy w x k r) (hlow : ResetLow (k + m) s) :
    ∃ u, edges k s = .next u ∧ u.port = .busy w x 0 r ∧ Untouched s u ∧ ResetLow m u := by
  induction k generalizing s with
  | zero => exact ⟨s, rfl, hp, .refl s, by rwa [Nat.zero_add] at hlow⟩
  | succ k ih =>
    rw [Nat.succ_add] at hlow
    have hstep := step_of_portEdge (rst_of_resetLow hlow) (portEdge_of_waiting (s := dropPins s) _ hp)
    obtain ⟨u, hu, hport, htouch, hlow'⟩ := ih rfl (resetLow_of_step hlow hstep)
    exact ⟨u, (edges_of_step hstep k).trans hu, hport, (untouched_builderEdge s _ _).trans htouch, hlow'⟩

/-- From the edge of its acceptance on a command waits until CMD_LATENCY(op) edges have passed. -/
theorem edges_of_accepted {s : State} {p : Pins} {rest : List Pins} (hp : s.port = .idle)
    (hin : s.inputs = p :: rest) (hv : p.cmdValid = true)
    (hlow : ResetLow (Config.cmdLatency (opField p.cmdWord) + 1) s) :
    ∃ u, edges (Config.cmdLatency (opField p.cmdWord)) s = .next u ∧
      u.port = .busy p.cmdWord p.cmdData 0 s.status.ready ∧ Untouched s u ∧ (nextPins u).rst = false := by
  have hrst : p.rst = false := by rw [← nextPins_of_cons hin]; exact rst_of_resetLow hlow
  have hstep := step_of_cons hin hrst (portEdge_of_idle_offered hp hv)
  obtain ⟨u, hu, hport, htouch, hlow'⟩ := edges_of_waiting 1 rfl (resetLow_of_step hlow hstep)
  exact ⟨u, (edges_of_step hstep _).trans hu, hport, (untouched_builderEdge s _ _).trans htouch,
    rst_of_resetLow hlow'⟩

/-- The READY that a command goes by is that of its acceptance: it has not fallen since (R224). -/
theorem commandReady_of_untouched {s u : State} {w : CmdWord} {x : Data} {k : Nat} (h : Untouched s u)
    (hp : u.port = .busy w x k s.status.ready) : commandReady u = s.status.ready := by
  rw [commandReady_of_busy hp]
  cases hr : s.status.ready with
  | true => rw [h.ready hr, Bool.and_self]
  | false => rfl

/-- A command that needs the tables is refused before READY (R224). -/
theorem exec_of_not_ready {i : Instr} {s : State} (hr : commandReady s = false)
    (hi : (s.status.fault = false ∧ ∃ d tl r, i = .swipe d tl r) ∨ (∃ d n, i = .lutRead d n)) :
    exec i s = .next (raise .notReady s) := by
  obtain ⟨hf, d, tl, r, rfl⟩ | ⟨d, n, rfl⟩ := hi
  · exact exec_swipe_of_not_ready tl r hf hr
  · exact exec_lutRead_of_not_ready d n hr

/-- Settles O11: the acceptance, the wait, and the command's step, which is NOT_READY's where READY was 0 at the
acceptance. -/
theorem acceptedCommandRespondsAfterItsLatency : Obligations.AcceptedCommandRespondsAfterItsLatency := by
  intro s p rest hp hin hv hlow
  obtain ⟨u, hu, hport, htouch, hrst⟩ := edges_of_accepted hp hin hv hlow
  have hready : commandReady u = s.status.ready := commandReady_of_untouched htouch hport
  obtain ⟨v, hrun⟩ := runCommand_total p.cmdWord p.cmdData (dropPins u)
  obtain ⟨e, x, hresp⟩ := runCommand_responds hrun
  have hstep := step_of_portEdge hrst ((portEdge_of_waited (s := dropPins u) _ hport).trans hrun)
  refine ⟨u, builderEdge v, e, x, hu, hport, hready, htouch.board, htouch.highest, htouch.status,
    (edges_append hu 1).trans (edges_one_of_step hstep), hresp, fun hr i hd hi => ?notReady⟩
  case notReady =>
    have hfault : u.status.fault = s.status.fault := by rw [htouch.status]
    rw [← hfault] at hi
    have hexec := exec_of_not_ready (s := dropPins u) (hready.trans hr) hi
    cases (((runCommand_of_decode hd _).trans hexec).symm.trans hrun)
    cases hresp
    refine ⟨rfl, rfl, htouch.board, htouch.highest, ?_⟩
    simp only [builderEdge, raise, respond, dropPins_status, faultAfter]
    rw [htouch.status]

/-! ### The build -/

/-- An edge of a build: READY rises at the edge at which BUILD_LATENCY is over (R251). -/
theorem step_of_building {s : State} (hr : s.status.ready = false) (hrst : (nextPins s).rst = false) :
    ∃ t, step s = .next t ∧ t.status.ready = buildEnds s.builder ∧ t.builder.edges = s.builder.edges + 1 := by
  obtain ⟨t, ht⟩ := step_total s
  obtain ⟨u, hu, rfl⟩ := step_sameBuild hrst ht
  have hru : u.status.ready = false := hu.ready.trans hr
  refine ⟨_, ht, ?_, ?_⟩
  · rw [builderEdge_ready, hru, hu.builder, Bool.false_or]
  · rw [builderEdge_builder, if_neg (by simp [hru]), hu.builder]

/-- READY is 0 for `k` edges and 1 at the next, with the tables built. -/
def BuildEndsAt (k : Nat) (s : State) : Prop :=
  (∀ j < k, ∃ u, edges j s = .next u ∧ u.status.ready = false) ∧
  ∃ t, edges k s = .next t ∧ t.status.ready = true ∧ TablesBuilt t

/-- One edge earlier. -/
theorem BuildEndsAt.of_step {k : Nat} {s t : State} (hr : s.status.ready = false) (h : step s = .next t)
    (ht : BuildEndsAt k t) : BuildEndsAt (k + 1) s := by
  obtain ⟨hbefore, hend⟩ := ht
  refine ⟨fun j hj => ?_, by rwa [edges_of_step h]⟩
  cases j with
  | zero => exact ⟨s, rfl, hr⟩
  | succ j => rw [edges_of_step h]; exact hbefore j (Nat.lt_of_succ_lt_succ hj)

/-- By induction on the edges that are left of the build. -/
theorem buildEndsAt_of_building {k : Nat} {s : State} (hI : MachineInv s) (hr : s.status.ready = false)
    (hk : Config.buildLatency = s.builder.edges + (k + 1)) (hlow : ResetLow (k + 1) s) :
    BuildEndsAt (k + 1) s := by
  induction k generalizing s with
  | zero =>
    obtain ⟨t, ht, hready, -⟩ := step_of_building hr (rst_of_resetLow hlow)
    have hready : t.status.ready = true := hready.trans (decide_eq_true hk.le)
    have hbuilt : TablesBuilt t := tablesBuilt_of_inv (everyStepKeepsTheInvariant s t hI ht) hready
    exact .of_step hr ht ⟨nofun, t, rfl, hready, hbuilt⟩
  | succ k ih =>
    obtain ⟨t, ht, hready, hedges⟩ := step_of_building hr (rst_of_resetLow hlow)
    have hready : t.status.ready = false := hready.trans (decide_eq_false (by omega))
    exact .of_step hr ht
      (ih (everyStepKeepsTheInvariant s t hI ht) hready (by omega) (resetLow_of_step hlow ht))

/-- Settles O15: the invariant bounds the edges a build has run by BUILD_LATENCY. -/
theorem buildCompletesInBuildLatency : Obligations.BuildCompletesInBuildLatency := by
  intro s hI hr hlow
  have hlt := (hI.building hr).2
  obtain ⟨k, hk⟩ : ∃ k, Config.buildLatency - s.builder.edges = k + 1 :=
    Nat.exists_eq_add_of_le' (Nat.sub_pos_of_lt hlt)
  rw [hk] at hlow ⊢
  exact buildEndsAt_of_building hI hr (by omega) hlow

/-! ### The LUT space -/

/-- Nothing is listed at or above the bound of the LUT space (R63). -/
theorem Memory.lookup_of_lutSpace_le {m : Memory} {lo a : Nat} (hm : m.sortedFrom lo = true)
    (ha : Config.lutSpace ≤ a) : m.lookup a = none := by
  induction m generalizing lo with
  | nil => rfl
  | cons c m ih =>
    obtain ⟨k, x⟩ := c
    simp only [sortedFrom, Bool.and_eq_true, decide_eq_true_eq] at hm
    obtain ⟨⟨-, hk⟩, hrest⟩ := hm
    rw [lookup, if_neg (by omega), ih hrest]

/-- Settles O17: finished tables hold the same at every address, and a canonical memory is determined by what it
lists. -/
theorem buildOrderIsUnobservable : Obligations.BuildOrderIsUnobservable := by
  intro e e'
  have hwf : ∀ e, (buildWrites e [] 0 Config.lutSpace).wf = true := fun e => wf_buildWrites e 0 _ rfl
  refine Memory.wf_ext (hwf e) (hwf e') fun a => ?_
  obtain ha | ha := Nat.lt_or_ge a Config.lutSpace
  · rw [lookup_builtTables e ha, lookup_builtTables e' ha]
  · rw [Memory.lookup_of_lutSpace_le (hwf e) ha, Memory.lookup_of_lutSpace_le (hwf e') ha]

/-- Settles O18: a reset empties the LUT space, and at every other edge the builder alone writes it. -/
theorem lutSpaceStaysCanonical : Obligations.LutSpaceStaysCanonical := by
  intro s t hwf h
  cases hrst : (nextPins s).rst with
  | true => cases (step_of_rst hrst).symm.trans h; rfl
  | false =>
    obtain ⟨u, hu, rfl⟩ := step_sameBuild hrst h
    exact wf_builderEdge (by rwa [hu.lut])

end Sys2Proof.Machine
end

section
/-! Lines and moves (R20, R134-R147, R190): the lines of a board, the laws of `slide`, the insertion's choice, a SWIPE
as a whole, and the obligations about them. -/

namespace Sys2Proof.Machine

/-! ### The lines of a board -/

/-- A line's mask covers the cells of the line (R130). -/
theorem nib_lineMask (a : Axis) {j k i : Nat} (hj : j < 4) (hk : k < 4) (hi : i < 4) :
    nib (lineMask a j) (lineCell a k i) = if k = j then 0xF else 0 := by
  cases a with
  | rows =>
    simp only [lineMask, lineCell, cellIndex]
    rw [nib_rowMask hj (by omega), show (4 * k + i) / 4 = k by omega]
  | cols =>
    simp only [lineMask, lineCell, cellIndex]
    rw [nib_colMask hj (by omega), show (4 * i + k) % 4 = k by omega]

theorem place_and_lineMask (n : Line) (a : Axis) {j : Nat} (hj : j < 4) :
    place n a j &&& lineMask a j = place n a j := by
  refine board_ext_lines a fun k hk i hi => ?_
  rw [nib_and, nib_place_lineCell n a hj hk hi, nib_lineMask a hj hk hi]
  split
  · exact code_and_ones _
  · rfl

theorem placeAll_line (b : Board) (a : Axis) : placeAll a (line b a) = b :=
  board_eq_of_line_eq a fun _ => line_placeAll a (line b a)

/-- Settles O56: the cells of a line, of its mask, and of the placed lines together. -/
theorem linesPartitionTheBoard : Obligations.LinesPartitionTheBoard := by
  refine ⟨fun b j i => nib_line b .rows, fun b j i => nib_line b .cols, fun n a j hj => ?mask,
    fun b a => placeAll_line b a⟩
  case mask =>
    rw [← place_and_lineMask n a hj, BitVec.and_assoc, BitVec.and_not_self]
    exact BitVec.and_zero

/-! ### The merge rule on faces -/

/-- Settles O58: the 256 pairs of codes, evaluated. -/
theorem mergeAddsFaces : Obligations.MergeAddsFaces := by
  unfold Obligations.MergeAddsFaces
  decide

/-! ### The first point at which `slide` acts -/

theorem blockedBefore_tiles {l : Line} {m : Nat} :
    BlockedBefore (tiles l) m ↔ ∀ k < m, nib l k ≠ 0 ∧ mergeable (nib l k) (nib l (k + 1)) = false := by
  simp only [BlockedBefore, getD_tiles]

/-- The scan comes to position `n`, or to an empty cell or a pair that merges in front of it. -/
theorem blockedBefore_or_point (l : Line) (n : Nat) :
    BlockedBefore (tiles l) n ∨ ∃ m < n, BlockedBefore (tiles l) m ∧
      (nib l m = 0 ∨ mergeable (nib l m) (nib l (m + 1)) = true) := by
  induction n with
  | zero => exact .inl nofun
  | succ n ih =>
    obtain h | ⟨m, hm, h⟩ := ih
    · by_cases hpoint : nib l n = 0 ∨ mergeable (nib l n) (nib l (n + 1)) = true
      · exact .inr ⟨n, Nat.lt_succ_self n, h, hpoint⟩
      · obtain ⟨hne, hmerge⟩ := not_or.mp hpoint
        exact .inl (blockedBefore_tiles.mpr
          (Nat.forall_lt_succ_right.mpr ⟨blockedBefore_tiles.mp h, hne, Bool.eq_false_iff.mpr hmerge⟩))
    · exact .inr ⟨m, Nat.lt_succ_of_lt hm, h⟩

/-- The first point is an empty cell, at position `m`. -/
def GapAt (l : Line) (m : Nat) : Prop := m < 3 ∧ BlockedBefore (tiles l) m ∧ nib l m = 0

/-- The first point is a pair that merges, at positions `m` and `m + 1`. -/
def PairAt (l : Line) (m : Nat) : Prop :=
  m < 3 ∧ BlockedBefore (tiles l) m ∧ mergeable (nib l m) (nib l (m + 1)) = true

/-- The three ways the scan of R142 ends. -/
theorem slide_cases (l : Line) : BlockedBefore (tiles l) 3 ∨ (∃ m, GapAt l m) ∨ ∃ m, PairAt l m := by
  obtain h | ⟨m, hm, h, hgap | hpair⟩ := blockedBefore_or_point l 3
  · exact .inl h
  · exact .inr (.inl ⟨m, hm, h, hgap⟩)
  · exact .inr (.inr ⟨m, hm, h, hpair⟩)

theorem GapAt.nib_slide {l : Line} {m p : Nat} (h : GapAt l m) (hp : p < 4) :
    nib (slide l) p = if p < m then nib l p else nib l (p + 1) :=
  nib_slide_of_gap h.1 hp h.2.1 h.2.2

theorem PairAt.nib_slide {l : Line} {m p : Nat} (h : PairAt l m) (hp : p < 4) :
    nib (slide l) p =
      if p < m then nib l p else if p = m then merged (nib l m) (nib l (m + 1)) else nib l (p + 1) :=
  nib_slide_of_merge h.1 hp h.2.1 h.2.2

/-- A line that the scan passes has no pair that merges. -/
theorem not_pairAt_of_blockedBefore {l : Line} (h : BlockedBefore (tiles l) 3) (m : Nat) : ¬ PairAt l m := by
  rintro ⟨hm, -, hpair⟩
  cases (blockedBefore_tiles.mp h m hm).2.symm.trans hpair

/-- There is one first point. -/
theorem GapAt.not_pairAt {l : Line} {m : Nat} (h : GapAt l m) (k : Nat) : ¬ PairAt l k := by
  obtain ⟨-, hfront, hgap⟩ := h
  rintro ⟨-, hfront', hpair⟩
  obtain hlt | rfl | hlt := Nat.lt_trichotomy k m
  · cases (blockedBefore_tiles.mp hfront k hlt).2.symm.trans hpair
  · exact (ne_zero_of_mergeable hpair).1 hgap
  · exact (blockedBefore_tiles.mp hfront' m hlt).1 hgap

theorem exists_mergesAt_iff {l : Line} : (∃ i, 1 ≤ i ∧ i ≤ 3 ∧ MergesAt l i) ↔ ∃ m, PairAt l m := by
  constructor
  · rintro ⟨i, h1, h3, hmerge, hfront⟩
    obtain ⟨m, rfl⟩ := Nat.exists_eq_add_of_le' h1
    exact ⟨m, h3, blockedBefore_tiles_iff.mpr hfront, canMergeAt_succ_iff.mp hmerge⟩
  · rintro ⟨m, hm, hfront, hpair⟩
    exact ⟨m + 1, Nat.succ_pos m, hm, canMergeAt_succ_iff.mpr hpair, blockedBefore_tiles_iff.mp hfront⟩

/-! ### The laws of `slide` (R144) -/

/-- Law 1. -/
theorem nib_slide_cases (l : Line) {p : Nat} (hp : p < 4) :
    nib (slide l) p = nib l p ∨ nib (slide l) p = nib l (p + 1) ∨
      (mergeable (nib l p) (nib l (p + 1)) = true ∧ nib (slide l) p = merged (nib l p) (nib l (p + 1))) := by
  obtain h | ⟨m, h⟩ | ⟨m, h⟩ := slide_cases l
  · exact .inl (by rw [slide_of_blockedBefore_three h])
  · rw [h.nib_slide hp]
    split
    · exact .inl rfl
    · exact .inr (.inl rfl)
  · rw [h.nib_slide hp]
    split_ifs with hlt heq
    · exact .inl rfl
    · subst heq; exact .inr (.inr ⟨h.2.2, rfl⟩)
    · exact .inr (.inl rfl)

/-- The number of tiles in one cell. -/
def tilesIn (c : Code) : Nat := if c = 0 then 0 else 1

@[simp] theorem tilesIn_zero : tilesIn 0#4 = 0 := rfl

theorem tilesIn_of_ne {c : Code} (h : c ≠ 0) : tilesIn c = 1 := if_neg h

theorem tileCount_eq_sum (l : Line) : tileCount l = ∑ p ∈ Finset.range 4, tilesIn (nib l p) := by
  simp only [tileCount, tiles, ← List.countP_eq_length_filter, List.countP_cons, List.countP_nil, bne_iff_ne, ne_eq,
    ite_not, Finset.sum_range_succ, Finset.sum_range_zero, tilesIn]
  ring

/-- A move into an empty cell loses no tile. -/
theorem GapAt.tileCount_slide {l : Line} {m : Nat} (h : GapAt l m) : tileCount (slide l) = tileCount l := by
  have hnib : ∀ p < 4, nib (slide l) p = if p < m then nib l p else nib l (p + 1) := fun p => h.nib_slide
  obtain ⟨hm, -, hgap⟩ := h
  have hout : nib l 4 = 0 := nib_of_ge l le_rfl
  simp only [tileCount_eq_sum, Finset.sum_range_succ, Finset.sum_range_zero, hnib, Nat.reduceLT]
  interval_cases m <;> simp [hgap, hout, add_comm]

/-- A merge makes one tile of two (law 2). -/
theorem PairAt.tileCount_slide {l : Line} {m : Nat} (h : PairAt l m) : tileCount (slide l) + 1 = tileCount l := by
  have hnib : ∀ p < 4, nib (slide l) p =
      if p < m then nib l p else if p = m then merged (nib l m) (nib l (m + 1)) else nib l (p + 1) :=
    fun p => h.nib_slide
  obtain ⟨hm, -, hpair⟩ := h
  obtain ⟨hfront, hback⟩ := ne_zero_of_mergeable hpair
  have hout : nib l 4 = 0 := nib_of_ge l le_rfl
  have hmerged := tilesIn_of_ne (merged_ne_zero hpair)
  simp only [tileCount_eq_sum, Finset.sum_range_succ, Finset.sum_range_zero, hnib, Nat.reduceLT]
  interval_cases m <;> simp [hout, hmerged, tilesIn_of_ne hfront, tilesIn_of_ne hback] <;> omega

/-- Law 2. -/
theorem tileCount_slide (l : Line) :
    (tileCount (slide l) + 1 = tileCount l ↔ ∃ m, PairAt l m) ∧
      (tileCount (slide l) + 1 = tileCount l ∨ tileCount (slide l) = tileCount l) := by
  obtain h | ⟨m, h⟩ | ⟨m, h⟩ := slide_cases l
  · rw [slide_of_blockedBefore_three h]
    exact ⟨iff_of_false (Nat.succ_ne_self _) (not_exists.mpr (not_pairAt_of_blockedBefore h)), .inr rfl⟩
  · rw [h.tileCount_slide]
    exact ⟨iff_of_false (Nat.succ_ne_self _) (not_exists.mpr h.not_pairAt), .inr rfl⟩
  · exact ⟨iff_of_true h.tileCount_slide ⟨m, h⟩, .inl h.tileCount_slide⟩

/-- A line that an empty first point leaves as it is has nothing behind that point. -/
theorem GapAt.nib_eq_zero {l : Line} {m : Nat} (h : GapAt l m) (hfix : slide l = l) {k : Nat} (hk : m ≤ k) :
    nib l k = 0 := by
  induction k, hk using Nat.le_induction with
  | base => exact h.2.2
  | succ k hk ih =>
    obtain hlt | hge := Nat.lt_or_ge k 4
    · have hnib := h.nib_slide hlt
      rw [hfix, if_neg (Nat.not_lt.mpr hk)] at hnib
      rw [← hnib, ih]
    · exact nib_of_ge l (by omega)

/-- A line that moves nowhere behind its empty first point has nothing there. -/
theorem GapAt.nib_eq_zero_of_not_canShiftAt {l : Line} {m : Nat} (h : GapAt l m) (hs : ¬ CanShiftAt l (m + 1))
    {k : Nat} (hk : m ≤ k) : nib l k = 0 := by
  by_contra hne
  obtain rfl | hlt := Nat.eq_or_lt_of_le hk
  · exact hne h.2.2
  · obtain h3 | h3 := Nat.lt_or_ge 3 k
    · exact hne (nib_of_ge l (by omega))
    · exact hs ⟨h.2.2, k, hlt, h3, hne⟩

/-- The line can shift or merge at some position (law 6). -/
def CanMove (l : Line) : Prop := ∃ i, 1 ≤ i ∧ i ≤ 3 ∧ (CanShiftAt l i ∨ CanMergeAt l i)

/-- In front of the first point the line can do neither. -/
theorem not_moves_of_blockedBefore {l : Line} {m q : Nat} (h : BlockedBefore (tiles l) m) (hq : q < m) :
    ¬ (CanShiftAt l (q + 1) ∨ CanMergeAt l (q + 1)) := by
  obtain ⟨hne, hpair⟩ := blockedBefore_tiles.mp h q hq
  rintro (⟨hgap, -⟩ | hmerge)
  · exact hne hgap
  · cases hpair.symm.trans (canMergeAt_succ_iff.mp hmerge)

/-- Law 6: a line that can move does. -/
theorem not_canMove_of_slide_eq {l : Line} (hfix : slide l = l) : ¬ CanMove l := by
  rintro ⟨i, h1, h3, hmove⟩
  obtain ⟨q, rfl⟩ := Nat.exists_eq_add_of_le' h1
  obtain h | ⟨m, h⟩ | ⟨m, h⟩ := slide_cases l
  case inl => exact not_moves_of_blockedBefore h h3 hmove
  case inr.inl =>
    have hq : m ≤ q := Nat.le_of_not_lt fun hlt => not_moves_of_blockedBefore h.2.1 hlt hmove
    obtain ⟨-, k, hk, -, hne⟩ | hmerge := hmove
    · exact hne (h.nib_eq_zero hfix (by omega))
    · exact hmerge.1 (h.nib_eq_zero hfix hq)
  case inr.inr =>
    have hcount := h.tileCount_slide
    rw [hfix] at hcount
    omega

/-- And one that cannot stays. -/
theorem slide_eq_of_not_canMove {l : Line} (h : ¬ CanMove l) : slide l = l := by
  obtain hpassed | ⟨m, hgap⟩ | ⟨m, hpair⟩ := slide_cases l
  · exact slide_of_blockedBefore_three hpassed
  · have hshift : ¬ CanShiftAt l (m + 1) := fun hs => h ⟨m + 1, Nat.succ_pos m, hgap.1, .inl hs⟩
    have hzero := fun k => hgap.nib_eq_zero_of_not_canShiftAt hshift (k := k)
    refine line_ext fun p hp => ?_
    rw [hgap.nib_slide hp]
    split
    · rfl
    · rw [hzero p (by omega), hzero (p + 1) (by omega)]
  · exact (h ⟨m + 1, Nat.succ_pos m, hpair.1, .inr (canMergeAt_succ_iff.mpr hpair.2.2)⟩).elim

/-- Law 5: below `<0,0,1,0>` a second `slide` changes nothing. -/
theorem slide_slide_of_lt {l : Line} (h : l.toNat < 0x0100) : slide (slide l) = slide l := by
  have hall : ∀ b : BitVec 8, slide (slide (b.setWidth 16)) = slide (b.setWidth 16) := by decide
  have hl : (l.setWidth 8).setWidth 16 = l := by
    apply BitVec.eq_of_toNat_eq
    rw [BitVec.toNat_setWidth, BitVec.toNat_setWidth]
    omega
  rw [← hl, hall]

/-- Settles O60: the laws, from the first point at which `slide` acts. -/
theorem slideLawsHold : Obligations.SlideLawsHold := by
  refine ⟨fun l p => nib_slide_cases l, fun l => ?count, fun l => nib_slide_three_of_ne,
    fun l => ⟨not_canMove_of_slide_eq, slide_eq_of_not_canMove⟩, by decide, by decide, fun l => slide_slide_of_lt⟩
  case count => rw [exists_mergesAt_iff]; exact tileCount_slide l

/-! ### A move -/

/-- Settles O29: with built tables the new line is the transform of the old one. -/
theorem swipeLanesAreIndependent : Obligations.SwipeLanesAreIndependent := by
  intro s s' d j hj h h' hline
  rw [line_candidate_of_built h d hj, line_candidate_of_built h' d hj, hline]

/-- Settles O36: the count of the selectors for each length of `E`, and the insertion's choice. -/
theorem selectorsZeroToElevenAreUniform : Obligations.SelectorsZeroToElevenAreUniform := by
  refine ⟨by decide, fun d t r b ht hE => ?_⟩
  obtain ⟨k, -, hsel, hins⟩ := insertTile_of_edges t r hE
  exact ⟨k, hsel, by rw [hins, if_pos ht]⟩

/-- EDGE_MASK has a bit for each line whose trailing-edge cell is empty (R195). -/
theorem getLsbD_edgeMaskOf_eq_decide_nib (d : Dir) (b : Board) {j : Nat} (hj : j < 4) :
    (edgeMaskOf (emptyEdges d b)).getLsbD j = decide (nib b (edgeCell d j) = 0) := by
  rw [getLsbD_edgeMaskOf d b hj, decide_eq_decide, mem_emptyEdges, and_iff_right hj]

/-- Settles O28: the candidate board is the move; a no-op reports itself, and a change frees an edge cell, into
which the insertion puts the tile. -/
theorem swipeAfterTheBuildPlaysTheMove : Obligations.SwipeAfterTheBuildPlaysTheMove := by
  intro s d t r hI hr
  have hbuilt : TablesBuilt s := tablesBuilt_of_inv hI (ready_of_commandReady hr)
  have hv : lookupsValid d s = true := lookupsValid_of_built hbuilt d
  refine ⟨candidate d s, fun j => line_candidate_of_built hbuilt d,
    noopSwipeConsumesNothing s d t r hI.noFault hr hv, fun hc => ?changed⟩
  case changed =>
    have hE := defensiveCaseIsDefinedAndUnreachable.2 s d hbuilt hc
    obtain ⟨k, -, hsel, hins⟩ := insertTile_of_edges t r hE
    refine ⟨k, boardWithTile d t k (candidate d s), maxCode s.highest (maxnib (boardWithTile d t k (candidate d s))),
      edgeMaskOf (emptyEdges d (candidate d s)), hsel, ite_not .., toNat_maxCode ..,
      fun j => getLsbD_edgeMaskOf_eq_decide_nib d (candidate d s), ?_⟩
    rw [exec_swipe_of_change t r hI.noFault hr hv hc, swipeCommit, hins, ite_not, apply_ite (BitVec.ofNat 4)]
    rfl

end Sys2Proof.Machine
end
